-- ==== Sys2Proof/Word.lean ====
section
/-! DEFINITION. The word types of the Tiny-ASM core (spec/00_scope.md R7, R9, R10). -/

namespace Sys2Proof

/-- A byte: one instruction, one register, one output value (R7). Bit 7 is the most significant (R9). -/
abbrev Byte := BitVec 8

/-- A line of text, as the host delivers it to IN (R140) and as the toolchain reads and writes it (R80, R90). -/
abbrev Text := List Char

end Sys2Proof
end

