-- ==== Sys2Proof/Config.lean ====
section
/-! DEFINITION. What the spec leaves open as a parameter of the machine (spec/00_scope.md R8). -/

namespace Sys2Proof

/-- `IO_BIT3_POLICY` (30_encoding.md R69, D3, C5): what an IO byte with the reserved bit 3 set decodes to. -/
inductive IoBit3Policy where
  /-- Bit 3 is read as 0. -/
  | ignore
  /-- The byte decodes to Unknown(4). -/
  | unknown
deriving DecidableEq, Repr

/-- The spec's default policy (R8, R69). -/
def IoBit3Policy.default : IoBit3Policy := .ignore

/-- `PARSE_INT` (R8, 42_io.md R144, D8): the host's text-to-integer function, `none` on a parse failure.
It has no body that a proof can see: what is proved holds whatever text the host takes for an integer (log 3). -/
opaque Config.parseInt : Text → Option Int

end Sys2Proof
end

