-- ==== Sys2Proof/Syntax.lean ====
section
/-! DEFINITION. The instructions (one constructor for each row of spec/opcode_table.json) and the names they use. -/

namespace Sys2Proof

/-- The four general registers (10_state.md R20), codes 0 to 3 in this order. -/
inductive Reg where
  | a | b | c | d
deriving DecidableEq, Repr

/-- The ALU's four operations (41_arithmetic.md R110), `alu_op` 00 to 11 in this order. -/
inductive AluOp where
  | add | sub | mul | div
deriving DecidableEq, Repr

/-- The direction bit of an IO byte (30_encoding.md R66): 0 is IN, 1 is OUT. -/
inductive Dir where
  | input | output
deriving DecidableEq, Repr

/-- One instruction. The three reserved opcodes are rows of the table: they decode to Unknown(5), (6) and (7)
and their execution is a fault (60_exceptions.md R164). -/
inductive Instr where
  /-- MOVI: `a <- imm7` (R100). -/
  | movi (imm7 : BitVec 7)
  /-- ADD r1,r2 (R112). -/
  | add (r1 r2 : Reg)
  /-- SUB r1,r2 (R113). -/
  | sub (r1 r2 : Reg)
  /-- MUL r1,r2 (R114). -/
  | mul (r1 r2 : Reg)
  /-- DIV r1,r2 (R115). -/
  | div (r1 r2 : Reg)
  /-- IN tr (R142). -/
  | inp (tr : Reg)
  /-- OUT tr (R143). -/
  | out (tr : Reg)
  /-- The reserved opcode 5: Unknown(5) (R71, R164). -/
  | reserved5
  /-- The reserved opcode 6: Unknown(6) (R71, R164). -/
  | reserved6
  /-- The reserved opcode 7: Unknown(7) (R71, R164). -/
  | reserved7
deriving DecidableEq, Repr

/-- The decoder's verdict on a byte (R70). Unknown(4) is no row of the opcode table: it is what an IO byte with
bit 3 set decodes to under `IO_BIT3_POLICY = UNKNOWN`, rejected here under its own name (R69, R71; log 7). -/
inductive Decoded where
  | instr (i : Instr)
  | unknown4
deriving DecidableEq, Repr

/-- The codec's errors (R74). Neither is a hardware fault (R88). -/
inductive CodecError where
  /-- `encodeMovi` of a value outside 0..127. -/
  | rangeError
  /-- A register operand that is none of a, b, c, d. -/
  | invalidRegisterError
deriving DecidableEq, Repr

end Sys2Proof
end

