-- ==== Sys2Proof/Machine/State.lean ====
section
/-! DEFINITION. The state of the core as plain data (spec/10_state.md R35, with the step's parameters and the host's
pending events beside it), the state after reset, and the ways a step can stop. -/

namespace Sys2Proof.Machine

/-- The register file: four 8-bit registers (10_state.md R20). -/
structure Regs where
  a : Byte
  b : Byte
  c : Byte
  d : Byte
deriving DecidableEq, Repr

/-- One event the host delivers to IN (42_io.md R140). -/
inductive InEvent where
  /-- One line of text. -/
  | line (t : Text)
  /-- The source "cannot obtain a line". -/
  | endOfStream
deriving DecidableEq, Repr

/-- One entry of the I/O history (10_state.md R34). -/
inductive IoEvent where
  | inp (e : InEvent)
  | out (v : Byte)
deriving DecidableEq, Repr

/-- The architectural faults (60_exceptions.md R160), a closed set (R161, C4, U6). They are STATES of the machine
(R162), not stops of the model. -/
inductive FaultReason where
  | divisionByZero
  | unknownOpcode
  | inputStream
deriving DecidableEq, Repr

/-- The fault record (10_state.md R32, D7; log 10): the reason, the index of the faulting instruction, and for
`unknownOpcode` the 3-bit opcode. -/
structure FaultRecord where
  reason : FaultReason
  pc : Nat
  opc : Option (BitVec 3)
deriving DecidableEq, Repr

/-- The run status (10_state.md R28), a function of the state (`State.status`). -/
inductive Status where
  | running
  | halted
  | faulted (reason : FaultReason)
deriving DecidableEq, Repr

/-- The program space (20_memory.md R40) as index and byte pairs. An index that is not listed does not exist: the space
has no value there (log 21). -/
abbrev Memory := List Host.Cell

/-- The state. `regs`, `pc`, `fault` and `io` are R35's; `prog` and `policy` are parameters of the step that R35 keeps
outside the state and that no step writes (log 1, log 2); `input` holds the events the host has delivered and no IN has
consumed yet (log 4). -/
structure State where
  /-- a, b, c, d (R20). -/
  regs : Regs
  /-- The program counter, a natural number (R25, R26, D2). -/
  pc : Nat
  /-- The fault record, absent until a fault (R32). -/
  fault : Option FaultRecord
  /-- The I/O history, oldest first (R34). -/
  io : List IoEvent
  /-- PROG, read-only (20_memory.md R42). -/
  prog : Memory
  /-- IO_BIT3_POLICY (30_encoding.md R69). -/
  policy : IoBit3Policy
  /-- Delivered and not consumed events, oldest first (42_io.md R140). -/
  input : List InEvent
deriving DecidableEq, Repr

/-- The register file after reset (R24, R190). -/
def Regs.reset : Regs := { a := 0#8, b := 0#8, c := 0#8, d := 0#8 }

/-- The machine after reset, with no program placed yet (70_reset_and_hazards.md R190): registers 0, pc 0, no fault
record, empty history. DESIGN CHOICE: nothing loaded and nothing delivered (log 1, log 4); the policy is the spec's
default (R69, log 2). -/
def State.reset : State :=
  { regs := Regs.reset, pc := 0, fault := none, io := [], prog := [], policy := IoBit3Policy.default, input := [] }

/-- The stops of a step. None of them is an architectural fault: those are next states (R162; log 5). -/
inductive Fault where
  /-- Raised by `step` when the status is Halted: "no step is enabled" (R166). Safe: the model stops where the machine has stopped. -/
  | noStepHalted
  /-- Raised by `step` when the status is Faulted: "no step is enabled" (R166). Safe: the model stops where the machine has stopped. -/
  | noStepFaulted (reason : FaultReason)
  /-- Raised by `step` when the status is Running and PROG has no byte at the pc, an index that does not exist (R40). R41 says
  no fetch is outside the program; only a state that no run reaches (pc past L) comes here. Safe (log 6). -/
  | fetchOutsideProgram (index : Nat)
deriving DecidableEq, Repr

/-- The refusals. No instruction of this model is refused: decoding is total and every instruction has its meaning (R36, R70). -/
inductive Refusal where
  /-- Raised by an arm of `exec` for an instruction without a meaning; no arm is left that does. Safe. -/
  | notModelled (mnemonic : String)
deriving DecidableEq, Repr

end Sys2Proof.Machine
end

