-- ==== Sys2Proof/Machine/Flags.lean ====
section
/-! DEFINITION. Flags: the core has none (spec/10_state.md R29, D5). ADD, SUB and MUL wrap and record nothing. The one
condition signal is the ALU's divide-by-zero output (spec/41_arithmetic.md R110). -/

namespace Sys2Proof.Machine

/-- `dz`: 1 iff the operation is DIV and B is 0 (R110). -/
def aluDz : AluOp → Byte → Bool
  | .add, _ => false
  | .sub, _ => false
  | .mul, _ => false
  | .div, b => b == 0#8

end Sys2Proof.Machine
end

