-- ==== Sys2Proof/Machine/Operands.lean ====
section
/-! DEFINITION. The values operands take: extension of the immediate, reduction modulo 256, and the value IN stores. -/

namespace Sys2Proof.Machine

/-- `zext_8`: a narrower unsigned value widened with zeros (00_scope.md R10, 30_encoding.md R67). -/
def zext8 {n : Nat} (v : BitVec n) : Byte := v.setWidth 8

/-- `sext_N`, two's-complement sign extension: defined by R10 for completeness (G2); no rule uses it. -/
def sextN {m : Nat} (n : Nat) (v : BitVec m) : BitVec n := v.signExtend n

/-- A mathematical integer reduced modulo 256 to a byte (R10). -/
def mod256 (z : Int) : Byte := BitVec.ofNat 8 (z % 256).toNat

/-- The clamp of IN (42_io.md R144): a parsed value in 0..127 is kept; a parse failure or any other value gives 0. -/
def clampInput : Option Int → Byte
  | none => 0#8
  | some n => if 0 ≤ n ∧ n ≤ 127 then BitVec.ofNat 8 n.toNat else 0#8

/-- `inValue(t)` (R144): the clamp of what the host's parser makes of the line. -/
def inValue (t : Text) : Byte := clampInput (Config.parseInt t)

end Sys2Proof.Machine
end

