-- ==== Sys2Proof/Machine/Alu.lean ====
section
/-! DEFINITION. The ALU (spec/41_arithmetic.md R110): 8-bit, unsigned, combinational. -/

namespace Sys2Proof.Machine

/-- `Y` (R110): the exact integer result, reduced modulo 256. DIV by 0 has no value, and the model gives it none (U9).
The quotient is the floor (R115, G1; log 11). -/
def aluY : AluOp → Byte → Byte → Option Byte
  | .add, a, b => some (mod256 ((a.toNat : Int) + (b.toNat : Int)))
  | .sub, a, b => some (mod256 ((a.toNat : Int) - (b.toNat : Int)))
  | .mul, a, b => some (mod256 ((a.toNat : Int) * (b.toNat : Int)))
  | .div, a, b => if aluDz .div b then none else some (BitVec.ofNat 8 (a.toNat / b.toNat))

end Sys2Proof.Machine
end

