-- ==== Sys2Proof/WellFormed.lean ====
section
/-! DEFINITION. Which instructions are representable: those that the codec can encode (spec/30_encoding.md R74, R75). -/

namespace Sys2Proof

/-- Representable (R75): the codec has an encode function for it (R74). The reserved opcodes are "not an instruction"
in the opcode table: they are decoded and executed (to a fault), and no encoder writes them (log 19). Operand ranges
need no check here, since a 7-bit immediate and a register name cannot be out of range. -/
def Instr.wellFormed : Instr → Bool
  | .movi _ => true
  | .add _ _ => true
  | .sub _ _ => true
  | .mul _ _ => true
  | .div _ _ => true
  | .inp _ => true
  | .out _ => true
  | .reserved5 => false
  | .reserved6 => false
  | .reserved7 => false

end Sys2Proof
end

