-- ==== Sys2Proof/Decode.lean ====
section
/-! DEFINITION. The codec (spec/30_encoding.md sections 1 to 4): fields, the total decoder, then the encoders. -/

namespace Sys2Proof

/-! ### Fields, by shift and mask on the plain 8-bit value (R62) -/

/-- `layout(b) = (b >> 7) & 1`: 0 is layout A, 1 is layout B (R61). -/
def layoutField (b : Byte) : BitVec 1 := ((b >>> 7) &&& 1#8).setWidth 1

/-- `imm7(b) = b & 0x7F`. -/
def imm7Field (b : Byte) : BitVec 7 := (b &&& 0x7F#8).setWidth 7

/-- `opc(b) = (b >> 4) & 0x7`. -/
def opcField (b : Byte) : BitVec 3 := ((b >>> 4) &&& 0x7#8).setWidth 3

/-- `r1(b) = (b >> 2) & 0x3`. -/
def r1Field (b : Byte) : BitVec 2 := ((b >>> 2) &&& 0x3#8).setWidth 2

/-- `r2(b) = b & 0x3`. -/
def r2Field (b : Byte) : BitVec 2 := (b &&& 0x3#8).setWidth 2

/-- `rsvd(b) = (b >> 3) & 1`, of an IO byte only. -/
def rsvdField (b : Byte) : BitVec 1 := ((b >>> 3) &&& 1#8).setWidth 1

/-- `dir(b) = (b >> 2) & 1`, of an IO byte only. -/
def dirField (b : Byte) : BitVec 1 := ((b >>> 2) &&& 1#8).setWidth 1

/-- `tr(b) = b & 0x3`, the target register of an IO byte. -/
def trField (b : Byte) : BitVec 2 := (b &&& 0x3#8).setWidth 2

/-! ### Codes of registers and operations (10_state.md R20, R64) -/

/-- The register a 2-bit code names: every code names one (R20, R68). -/
def Reg.ofCode (v : BitVec 2) : Reg :=
  match v.getLsbD 1, v.getLsbD 0 with
  | false, false => .a
  | false, true => .b
  | true, false => .c
  | true, true => .d

/-- The 2-bit code of a register (R20). -/
def Reg.code : Reg → BitVec 2
  | .a => 0#2
  | .b => 1#2
  | .c => 2#2
  | .d => 3#2

/-- The register's letter in the toolchain's text (R84, R91). -/
def Reg.letter : Reg → Char
  | .a => 'a'
  | .b => 'b'
  | .c => 'c'
  | .d => 'd'

/-- The register a lowercase letter names, if it names one (R74, R84). -/
def Reg.ofLetter (ch : Char) : Option Reg :=
  if ch = 'a' then some .a
  else if ch = 'b' then some .b
  else if ch = 'c' then some .c
  else if ch = 'd' then some .d
  else none

/-- The operation of a 2-bit `alu_op` (R73, R110). -/
def AluOp.ofBits (v : BitVec 2) : AluOp :=
  match v.getLsbD 1, v.getLsbD 0 with
  | false, false => .add
  | false, true => .sub
  | true, false => .mul
  | true, true => .div

/-- The 3-bit opcode of an arithmetic operation (R64, R74). -/
def AluOp.opc : AluOp → BitVec 3
  | .add => 0#3
  | .sub => 1#3
  | .mul => 2#3
  | .div => 3#3

/-- The direction bit's value (R66, R74). -/
def Dir.bit : Dir → BitVec 1
  | .input => 0#1
  | .output => 1#1

/-! ### The decoder (R70) -/

/-- Opcode 4 (R66, R69): bit 3 by the policy, then the direction. The byte's own bit is asked before the policy, so
that a byte with bit 3 clear reads the same under both. -/
def decodeIo (p : IoBit3Policy) (b : Byte) : Decoded :=
  if rsvdField b = 1#1 ∧ p = .unknown then .unknown4
  else if dirField b = 0#1 then .instr (.inp (Reg.ofCode (trField b)))
  else .instr (.out (Reg.ofCode (trField b)))

/-- Layout B (R64): the case on bits 6..4. -/
def decodeLayoutB (p : IoBit3Policy) (b : Byte) : Decoded :=
  match (opcField b).getLsbD 2, (opcField b).getLsbD 1, (opcField b).getLsbD 0 with
  | false, false, false => .instr (.add (Reg.ofCode (r1Field b)) (Reg.ofCode (r2Field b)))
  | false, false, true => .instr (.sub (Reg.ofCode (r1Field b)) (Reg.ofCode (r2Field b)))
  | false, true, false => .instr (.mul (Reg.ofCode (r1Field b)) (Reg.ofCode (r2Field b)))
  | false, true, true => .instr (.div (Reg.ofCode (r1Field b)) (Reg.ofCode (r2Field b)))
  | true, false, false => decodeIo p b
  | true, false, true => .instr .reserved5
  | true, true, false => .instr .reserved6
  | true, true, true => .instr .reserved7

/-- The decoder, a pure and total function of the byte under the machine's policy (R70). -/
def decode (p : IoBit3Policy) (b : Byte) : Decoded :=
  if layoutField b = 0#1 then .instr (.movi (imm7Field b)) else decodeLayoutB p b

/-! ### The encoders (R74) -/

/-- The byte of a MOVI: `0 ++ v[6:0]` (R63, R74). -/
def moviByte (imm7 : BitVec 7) : Byte := 0#1 ++ imm7

/-- The byte of an arithmetic instruction: `1 ++ op[2:0] ++ code(r1) ++ code(r2)` (R65, R74). -/
def arithByte (op : AluOp) (r1 r2 : Reg) : Byte := 1#1 ++ op.opc ++ r1.code ++ r2.code

/-- The byte of an IO instruction: `1 ++ 100 ++ 0 ++ dir ++ code(r)`; bit 3 is always written 0 (R66, R69, R74). -/
def ioByte (dir : Dir) (r : Reg) : Byte := 1#1 ++ 4#3 ++ 0#1 ++ dir.bit ++ r.code

/-- `encodeMovi(v)`: a value outside 0..127 is a RangeError and gives no byte (R74, U3). -/
def encodeMovi (v : Int) : Except CodecError Byte :=
  if 0 ≤ v ∧ v ≤ 127 then .ok (moviByte (BitVec.ofInt 7 v)) else .error .rangeError

/-- `encodeArithmetic(op, r1, r2)`: register operands as letters, InvalidRegisterError unless both are in a..d (R74). -/
def encodeArithmetic (op : AluOp) (c1 c2 : Char) : Except CodecError Byte :=
  match Reg.ofLetter c1, Reg.ofLetter c2 with
  | some r1, some r2 => .ok (arithByte op r1 r2)
  | _, _ => .error .invalidRegisterError

/-- `encodeIO(dir, r)`: the register operand as a letter, InvalidRegisterError unless it is in a..d (R74). -/
def encodeIo (dir : Dir) (ch : Char) : Except CodecError Byte :=
  match Reg.ofLetter ch with
  | some r => .ok (ioByte dir r)
  | none => .error .invalidRegisterError

/-- The byte of a representable instruction; no byte for a reserved opcode, which no encoder writes (R74, R75; log 19). -/
def encode : Instr → Option Byte
  | .movi imm7 => some (moviByte imm7)
  | .add r1 r2 => some (arithByte .add r1 r2)
  | .sub r1 r2 => some (arithByte .sub r1 r2)
  | .mul r1 r2 => some (arithByte .mul r1 r2)
  | .div r1 r2 => some (arithByte .div r1 r2)
  | .inp tr => some (ioByte .input tr)
  | .out tr => some (ioByte .output tr)
  | .reserved5 => none
  | .reserved6 => none
  | .reserved7 => none

/-! ### The host's question about a row of the opcode table -/

/-- The byte an instruction of the table is stored as: every instruction is one byte (R60), and bits above `nbits` are 0. -/
def tableByte (nbits w : Nat) : Byte := BitVec.ofNat 8 (w % 2 ^ nbits)

/-- What the decoder reads from an instruction whose bits are `w`, under the spec's default policy (R69). -/
def decodeTableWord (nbits w : Nat) : Option Instr :=
  match decode IoBit3Policy.default (tableByte nbits w) with
  | .instr i => some i
  | .unknown4 => none

end Sys2Proof
end

