-- ==== Sys2Proof/Machine/Ops.lean ====
section
/-! DEFINITION. The named operations over the program space, the register file, the pc, the fault record and the
channels. Meanings are written over these. -/

namespace Sys2Proof.Machine

/-! ### The program space (20_memory.md R40 to R42) -/

/-- The byte at an index, `none` at an index that is not in the program (R40). -/
def Memory.read : Memory → Nat → Option Byte
  | [], _ => none
  | (a, b) :: m, k => if a = k then some b else Memory.read m k

/-- `L`, the program's length (R26, R40). -/
def Memory.size (m : Memory) : Nat := m.length

/-- The indices are k, k+1, ... in order. -/
def Memory.wfFrom : Nat → Memory → Bool
  | _, [] => true
  | k, (a, _) :: m => a == k && Memory.wfFrom (k + 1) m

/-- The canonical form: indices strictly rising from 0 with no gap, "a flat sequence of bytes" (R40). -/
def Memory.wf (m : Memory) : Bool := Memory.wfFrom 0 m

/-- The cells of a byte sequence whose first byte has index k. -/
def Memory.ofBytesFrom : Nat → List Byte → Memory
  | _, [] => []
  | k, b :: bs => (k, b) :: Memory.ofBytesFrom (k + 1) bs

/-- The program space that holds a byte sequence, its first byte at index 0 (70_reset_and_hazards.md R194). -/
def Memory.ofBytes (bs : List Byte) : Memory := Memory.ofBytesFrom 0 bs

/-- The byte sequence a program space holds. -/
def Memory.bytes (m : Memory) : List Byte := m.map Prod.snd

/-- A byte sequence with the byte `b` at index `k`, the bytes before and after it kept; where the sequence is shorter,
the gap is filled with zeros. Used by the host's placement only (`State.withFetchWord`; log 20): the core writes no memory (R42). -/
def placeAt : Nat → Byte → List Byte → List Byte
  | 0, b, [] => [b]
  | 0, b, _ :: bs => b :: bs
  | k + 1, b, [] => 0#8 :: placeAt k b []
  | k + 1, b, x :: bs => x :: placeAt k b bs

/-! ### The register file (10_state.md R20 to R22) -/

/-- A read port: `x[r]`. -/
def Regs.get (x : Regs) : Reg → Byte
  | .a => x.a
  | .b => x.b
  | .c => x.c
  | .d => x.d

/-- The write port with write enable 1: `x[r] <- v`. -/
def Regs.set (x : Regs) (r : Reg) (v : Byte) : Regs :=
  match r with
  | .a => { x with a := v }
  | .b => { x with b := v }
  | .c => { x with c := v }
  | .d => { x with d := v }

/-- `x[r]` in a state (00_scope.md R11). -/
def State.getReg (s : State) (r : Reg) : Byte := s.regs.get r

/-- `x[r] <- v` (R11). -/
def State.setReg (s : State) (r : Reg) (v : Byte) : State := { s with regs := s.regs.set r v }

/-! ### The sequencer (10_state.md R25 to R28) -/

/-- `pc <- pc + 1` (R25). -/
def State.advance (s : State) : State := { s with pc := s.pc + 1 }

/-- L (R26). -/
def State.progLen (s : State) : Nat := s.prog.size

/-- The run status, the function of the state that R28 gives. -/
def State.status (s : State) : Status :=
  match s.fault with
  | some f => .faulted f.reason
  | none => if s.pc = s.progLen then .halted else .running

/-- `MemRead(pc, 1)` (20_memory.md R41). -/
def State.fetch (s : State) : Option Byte := s.prog.read s.pc

/-! ### Taking a fault (60_exceptions.md R162) -/

/-- `raise F(info)`: the one operation that every fault goes through. It records the reason, the faulting instruction's
index and, for UnknownOpcodeFault, the opcode; the status becomes Faulted (`State.status`); no register is written and the
pc stays. It saves nothing else and goes nowhere (R165), and nothing returns from it (R166). -/
def State.raise (s : State) (reason : FaultReason) (opc : Option (BitVec 3)) : State :=
  { s with fault := some { reason := reason, pc := s.pc, opc := opc } }

/-- The numeric code of a fault (R160, D6: labels of the spec's own choice). -/
def FaultReason.code : FaultReason → Nat
  | .divisionByZero => 1
  | .unknownOpcode => 2
  | .inputStream => 3

/-- The code of the state's fault record: 0 when it is absent (R160). -/
def State.faultCode (s : State) : Nat :=
  match s.fault with
  | none => 0
  | some f => f.reason.code

/-! ### The channels (42_io.md R140, R141) -/

/-- `InRead()` with the recording that R142 puts right after it: the oldest delivered event and the state in which it is
consumed and recorded; `none` while the host has delivered nothing (the hold, 10_state.md R33). -/
def State.inRead (s : State) : Option (InEvent × State) :=
  match s.input with
  | [] => none
  | e :: rest => some (e, { s with input := rest, io := s.io ++ [.inp e] })

/-- `OutWrite(v)` with its record in the history (R141, R143). -/
def State.outWrite (s : State) (v : Byte) : State := { s with io := s.io ++ [.out v] }

end Sys2Proof.Machine
end

