-- ==== Sys2Proof/Machine/Arith.lean ====
section
/-! DEFINITION. Layout B arithmetic: ADD, SUB, MUL and DIV (spec/41_arithmetic.md). -/

namespace Sys2Proof.Machine

/-- The convention the four share (R111): both registers are read, the ALU gives its value and r1 is written; where the ALU
has no value (DIV by 0, R115) DivisionByZeroFault is raised, with no write and the pc unchanged. -/
def aluInstr (op : AluOp) (r1 r2 : Reg) (s : State) : Host.Outcome State Fault Refusal :=
  match aluY op (s.getReg r1) (s.getReg r2) with
  | some y => .next ((s.setReg r1 y).advance)
  | none => .next (s.raise .divisionByZero none)

/-- ADD (R112). -/
def execAdd (r1 r2 : Reg) (s : State) : Host.Outcome State Fault Refusal := aluInstr .add r1 r2 s

/-- SUB (R113). -/
def execSub (r1 r2 : Reg) (s : State) : Host.Outcome State Fault Refusal := aluInstr .sub r1 r2 s

/-- MUL (R114). -/
def execMul (r1 r2 : Reg) (s : State) : Host.Outcome State Fault Refusal := aluInstr .mul r1 r2 s

/-- DIV (R115). -/
def execDiv (r1 r2 : Reg) (s : State) : Host.Outcome State Fault Refusal := aluInstr .div r1 r2 s

end Sys2Proof.Machine
end

