-- ==== Sys2Proof/Machine/Io.lean ====
section
/-! DEFINITION. Layout B opcode 4: IN and OUT (spec/42_io.md). -/

namespace Sys2Proof.Machine

/-- IN (R142). With no event delivered it is held: the same state, until the host delivers (R33, R140, R176; log 4). The event
is consumed and recorded whether it is a line or the end of the stream (C9). -/
def execInp (tr : Reg) (s : State) : Host.Outcome State Fault Refusal :=
  match s.inRead with
  | none => .next s
  | some (.endOfStream, s') => .next (s'.raise .inputStream none)
  | some (.line t, s') => .next ((s'.setReg tr (inValue t)).advance)

/-- OUT (R143): emits the register and changes no register. -/
def execOut (tr : Reg) (s : State) : Host.Outcome State Fault Refusal :=
  .next ((s.outWrite (s.getReg tr)).advance)

end Sys2Proof.Machine
end

