-- ==== Sys2Proof/Machine/Movi.lean ====
section
/-! DEFINITION. Layout A: MOVI (spec/40_movi.md). -/

namespace Sys2Proof.Machine

/-- MOVI (R100): `a <- zext_8(imm7)`, always into `a`. -/
def execMovi (imm7 : BitVec 7) (s : State) : Host.Outcome State Fault Refusal :=
  .next ((s.setReg .a (zext8 imm7)).advance)

end Sys2Proof.Machine
end

