-- ==== Sys2Proof/Machine/Reserved.lean ====
section
/-! DEFINITION. Executing an unknown opcode (spec/60_exceptions.md R164). -/

namespace Sys2Proof.Machine

/-- The shared operation of R164: `raise UnknownOpcodeFault(pc, opc)`. -/
def execUnknown (opc : BitVec 3) (s : State) : Host.Outcome State Fault Refusal :=
  .next (s.raise .unknownOpcode (some opc))

/-- Unknown(4), an IO byte with bit 3 set under `IO_BIT3_POLICY = UNKNOWN` (R69, R164). -/
def execUnknown4 (s : State) : Host.Outcome State Fault Refusal := execUnknown 4#3 s

/-- The reserved opcode 5 (R164). -/
def execReserved5 (s : State) : Host.Outcome State Fault Refusal := execUnknown 5#3 s

/-- The reserved opcode 6 (R164). -/
def execReserved6 (s : State) : Host.Outcome State Fault Refusal := execUnknown 6#3 s

/-- The reserved opcode 7 (R164). -/
def execReserved7 (s : State) : Host.Outcome State Fault Refusal := execUnknown 7#3 s

end Sys2Proof.Machine
end

