-- ==== Sys2Proof/Machine/Step.lean ====
section
/-! DEFINITION. The step (spec/10_state.md R36) and the host's placement of one instruction. -/

namespace Sys2Proof.Machine

/-- One step: enabled only when Running (R36), it fetches the byte at the pc (R41), decodes it under the machine's policy
(R70) and runs it. In Halted and Faulted no step is enabled (R166). -/
def step (s : State) : Host.Outcome State Fault Refusal :=
  match s.status with
  | .halted => .fault .noStepHalted
  | .faulted reason => .fault (.noStepFaulted reason)
  | .running =>
    match s.fetch with
    | none => .fault (.fetchOutsideProgram s.pc)
    | some b =>
      match decode s.policy b with
      | .instr i => exec i s
      | .unknown4 => execUnknown4 s

/-- `s` with the instruction's byte placed where the next step fetches: in the program at the pc, the rest of the program
kept and a gap before the pc filled with zeros. A fault record is cleared, since no step runs beside one (R166). It stands for
the host's load of the program (R194; log 1, log 20). -/
def State.withFetchWord (s : State) (nbits w : Nat) : State :=
  { s with
    prog := Memory.ofBytes (placeAt s.pc (tableByte nbits w) s.prog.bytes)
    fault := none }

end Sys2Proof.Machine
end

