-- ==== Sys2Proof/Machine/Assembler.lean ====
section
/-! DEFINITION. The assembler (spec/30_encoding.md section 5, R80 to R89): toolchain, not hardware. Where the source says
nothing, the spec's decisions D17 to D20 and D22 are followed; what they leave open is in log 16, 17 and 18. -/

namespace Sys2Proof.Machine

/-- The assembler's errors (R88). -/
inductive AsmError where
  /-- No mnemonic matches (R86), with the offending text. -/
  | unknownInstruction (t : Text)
  /-- A MOVI operand that is no whole integer in 0..127 (R83). -/
  | invalidOperand
  /-- Fewer register tokens than the instruction takes (R84, R85). -/
  | missingOperand
  /-- A register token that names no register (R84). -/
  | invalidRegister
  /-- More tokens than the instruction takes: refused, a kind the source does not name (R84, R85, D18). -/
  | extraOperands
deriving DecidableEq, Repr

/-- White space that trimming removes. DESIGN CHOICE: space, tab, line feed, vertical tab, form feed, carriage return (log 16). -/
def isSpace (ch : Char) : Bool :=
  ch == ' ' || ch == '\t' || ch == '\n' || ch == '\r' || ch == '\x0b' || ch == '\x0c'

/-- Trimming of leading and trailing white space (R80, R82). -/
def trim (t : Text) : Text := ((t.dropWhile isSpace).reverse.dropWhile isSpace).reverse

/-- Preprocessing (R80): the comment from the first `;` on is cut, then the line is trimmed. -/
def preprocess (t : Text) : Text := trim (t.takeWhile fun ch => ch != ';')

/-- What a mnemonic selects. -/
inductive Mnemonic where
  | movi
  | arith (op : AluOp)
  | io (dir : Dir)
deriving DecidableEq, Repr

/-- The fixed ordered list of mnemonics (R81): its order is load-bearing. -/
def mnemonicList : List (Text × Mnemonic) :=
  [("MOVI".toList, .movi), ("ADD".toList, .arith .add), ("SUB".toList, .arith .sub), ("MUL".toList, .arith .mul),
   ("DIV".toList, .arith .div), ("IN".toList, .io .input), ("OUT".toList, .io .output)]

/-- The rest of a line that begins with the mnemonic's letters, in any case and with no separator required (R81, D17). -/
def dropPrefix : Text → Text → Option Text
  | [], rest => some rest
  | _ :: _, [] => none
  | m :: ms, ch :: rest => if ch.toUpper = m then dropPrefix ms rest else none

/-- The first mnemonic of a list that the line begins with, and the operand string (R81, R82). -/
def recognise : List (Text × Mnemonic) → Text → Option (Mnemonic × Text)
  | [], _ => none
  | (name, m) :: others, line =>
    match dropPrefix name line with
    | some rest => some (m, rest)
    | none => recognise others line

/-- A text split on commas (R82); a text with no comma is one token. -/
def splitCommas : Text → List Text
  | [] => [[]]
  | ch :: rest =>
    if ch = ',' then [] :: splitCommas rest
    else match splitCommas rest with
      | [] => [[ch]]
      | tok :: toks => (ch :: tok) :: toks

/-- The trimmed operand tokens of an operand string (R82). -/
def operandTokens (t : Text) : List Text := (splitCommas t).map trim

/-- The value of decimal digits read after `acc`; `none` at a character that is no digit. -/
def digitsFrom : Nat → Text → Option Nat
  | acc, [] => some acc
  | acc, ch :: rest =>
    if '0' ≤ ch ∧ ch ≤ '9' then digitsFrom (acc * 10 + (ch.toNat - '0'.toNat)) rest else none

/-- One or more decimal digits. -/
def digits : Text → Option Nat
  | [] => none
  | ch :: rest => digitsFrom 0 (ch :: rest)

/-- The literal of MOVI (R83, D22): an optional sign, then one or more decimal digits, the whole token consumed. -/
def parseLiteral : Text → Option Int
  | '+' :: rest => (digits rest).map Int.ofNat
  | '-' :: rest => (digits rest).map fun n => -Int.ofNat n
  | t => (digits t).map Int.ofNat

/-- MOVI's operand (R83): one literal token in 0..127, else InvalidOperand. The encoder's RangeError is reported as
InvalidOperand at this layer (C6). -/
def assembleMovi : List Text → Except AsmError Byte
  | [tok] =>
    match parseLiteral tok with
    | none => .error .invalidOperand
    | some v =>
      match encodeMovi v with
      | .ok b => .ok b
      | .error _ => .error .invalidOperand
  | _ => .error .invalidOperand

/-- The operands of ADD, SUB, MUL and DIV (R84): exactly two tokens, each decided by its first character (D19). -/
def assembleArith (op : AluOp) : List Text → Except AsmError Byte
  | [] => .error .missingOperand
  | [_] => .error .missingOperand
  | [t1, t2] =>
    match t1.head?, t2.head? with
    | some c1, some c2 =>
      match encodeArithmetic op c1 c2 with
      | .ok b => .ok b
      | .error _ => .error .invalidRegister
    | _, _ => .error .invalidRegister
  | _ :: _ :: _ :: _ => .error .extraOperands

/-- The operand of IN and OUT (R85): one token; an empty operand string is MissingOperand (D19). -/
def assembleIo (dir : Dir) : List Text → Except AsmError Byte
  | [] => .error .missingOperand
  | [[]] => .error .missingOperand
  | [ch :: _] =>
    match encodeIo dir ch with
    | .ok b => .ok b
    | .error _ => .error .invalidRegister
  | _ :: _ :: _ => .error .extraOperands

/-- The byte of a recognised instruction. -/
def assembleOperands : Mnemonic → List Text → Except AsmError Byte
  | .movi, toks => assembleMovi toks
  | .arith op, toks => assembleArith op toks
  | .io dir, toks => assembleIo dir toks

/-- `assembleLine` (R80 to R86): no byte for a line that is empty after preprocessing, one byte for any other accepted
line (R89), else the error. DESIGN CHOICE: the offending text of UnknownInstruction is the preprocessed line (log 17). -/
def assembleLine (line : Text) : Except AsmError (Option Byte) :=
  match preprocess line with
  | [] => .ok none
  | ch :: rest =>
    match recognise mnemonicList (ch :: rest) with
    | none => .error (.unknownInstruction (ch :: rest))
    | some (m, operands) =>
      match assembleOperands m (operandTokens operands) with
      | .ok b => .ok (some b)
      | .error e => .error e

/-- Batch assembly from a 1-based line number on (R87). -/
def assembleFrom : Nat → List Text → Except (Nat × AsmError) (List Byte)
  | _, [] => .ok []
  | n, line :: lines =>
    match assembleLine line with
    | .error e => .error (n, e)
    | .ok none => assembleFrom (n + 1) lines
    | .ok (some b) =>
      match assembleFrom (n + 1) lines with
      | .error e => .error e
      | .ok bs => .ok (b :: bs)

/-- `assembleFile` (R87): the bytes in line order, or only the first failing line's number and error (D20). -/
def assembleFile (lines : List Text) : Except (Nat × AsmError) (List Byte) := assembleFrom 1 lines

end Sys2Proof.Machine
end

