-- ==== Sys2Proof/Machine/Datapath.lean ====
section
/-! DEFINITION. The sub-blocks as hardware (spec/92_eei_decisions.md D1): the decoder's outputs (30_encoding.md R73), the
register file's ports (10_state.md R22), the ALU's ports (41_arithmetic.md R110), and one instruction run through them. The
ports are the spec's own choice; how the write enable and the next pc are gated between them is DEDUCED from the instruction
rules (log 14). -/

namespace Sys2Proof.Machine

/-- The decoder's outputs (R73). -/
structure DecoderOut where
  layout : BitVec 1
  imm7 : BitVec 7
  opc : BitVec 3
  r1 : BitVec 2
  r2 : BitVec 2
  dir : BitVec 1
  rsvd : BitVec 1
  isMovi : Bool
  isAlu : Bool
  aluOp : BitVec 2
  isIn : Bool
  isOut : Bool
  isUnknown : Bool
  unkOpc : BitVec 3
deriving DecidableEq, Repr

/-- The combinational decoder (R73): every output as a function of `instr[7:0]` and the policy. DESIGN CHOICE: the table gives
`unk_opc` only when `is_unknown` is 1; here it is `instr[6:4]` for every byte (log 23, unsafe for a claim about it elsewhere). -/
def decoderOut (p : IoBit3Policy) (instr : Byte) : DecoderOut :=
  let nibble := instr.extractLsb' 4 4
  let rsvdUnknown := instr.getLsbD 3 && decide (p = .unknown)
  { layout := instr.extractLsb' 7 1
    imm7 := instr.extractLsb' 0 7
    opc := instr.extractLsb' 4 3
    r1 := instr.extractLsb' 2 2
    r2 := instr.extractLsb' 0 2
    dir := instr.extractLsb' 2 1
    rsvd := instr.extractLsb' 3 1
    isMovi := !instr.getLsbD 7
    isAlu := instr.extractLsb' 6 2 == 2#2
    aluOp := instr.extractLsb' 4 2
    isIn := nibble == 0xC#4 && !instr.getLsbD 2 && !rsvdUnknown
    isOut := nibble == 0xC#4 && instr.getLsbD 2 && !rsvdUnknown
    isUnknown := nibble == 0xD#4 || nibble == 0xE#4 || nibble == 0xF#4 || (nibble == 0xC#4 && rsvdUnknown)
    unkOpc := instr.extractLsb' 4 3 }

/-- A combinational read port of the register file (R22): `rd = x[ra]`. -/
def Regs.port (x : Regs) (ra : BitVec 2) : Byte := x.get (Reg.ofCode ra)

/-- The write port of the register file (R22): the file after the instruction. -/
def Regs.clock (x : Regs) (we : Bool) (wa : BitVec 2) (wd : Byte) : Regs :=
  if we then x.set (Reg.ofCode wa) wd else x

/-- The ALU's outputs (R110): `Y`, absent where it has no value, and `dz`. -/
structure AluOut where
  y : Option Byte
  dz : Bool
deriving DecidableEq, Repr

/-- The ALU as a block: inputs `A`, `B` and `alu_op` (R110). -/
def aluBlock (a b : Byte) (aluOp : BitVec 2) : AluOut :=
  { y := aluY (AluOp.ofBits aluOp) a b, dz := aluDz (AluOp.ofBits aluOp) b }

/-- One instruction through the blocks: decode, two reads, the ALU, the write and the sequencer's update. -/
def datapath (instr : Byte) (s : State) : State :=
  let d := decoderOut s.policy instr
  let rd1 := s.regs.port d.r1
  let rd2 := s.regs.port d.r2
  let alu := aluBlock rd1 rd2 d.aluOp
  let event := if d.isIn then s.input.head? else none
  let divFault := d.isAlu && alu.dz
  let inFault := event == some .endOfStream
  let held := d.isIn && event.isNone
  let we := d.isMovi || (d.isAlu && !alu.dz) || (event.isSome && !inFault)
  let wa := if d.isMovi then 0#2 else if d.isAlu then d.r1 else d.r2
  let wd :=
    if d.isMovi then zext8 d.imm7
    else if d.isAlu then alu.y.getD 0#8
    else match event with
      | some (.line t) => inValue t
      | _ => 0#8
  { s with
    regs := s.regs.clock we wa wd
    pc := if held || divFault || inFault || d.isUnknown then s.pc else s.pc + 1
    fault :=
      if d.isUnknown then some { reason := .unknownOpcode, pc := s.pc, opc := some d.unkOpc }
      else if divFault then some { reason := .divisionByZero, pc := s.pc, opc := none }
      else if inFault then some { reason := .inputStream, pc := s.pc, opc := none }
      else s.fault
    io :=
      match event with
      | some e => s.io ++ [.inp e]
      | none => if d.isOut then s.io ++ [.out rd2] else s.io
    input := if d.isIn then s.input.tail else s.input }

end Sys2Proof.Machine
end

