-- ==== Sys2Proof/Machine/Disassembler.lean ====
section
/-! DEFINITION. The disassembler (spec/30_encoding.md section 6, R90 to R93, D21): toolchain, not hardware. -/

namespace Sys2Proof.Machine

/-- A number in decimal, without leading zeros (D21). -/
def decimal (n : Nat) : Text := Nat.toDigits 10 n

/-- `<OP> <r1>,<r2>` with register letters (R91). -/
def renderArith (name : Text) (r1 r2 : Reg) : Text := name ++ [' ', r1.letter, ',', r2.letter]

/-- The rendering of an unknown opcode (R92). -/
def renderUnknown (n : Nat) : Text := "??? (Unknown opcode: ".toList ++ decimal n ++ [')']

/-- The rendering of a decoded instruction (R91, R92). -/
def render : Instr → Text
  | .movi imm7 => "MOVI #".toList ++ decimal imm7.toNat
  | .add r1 r2 => renderArith "ADD".toList r1 r2
  | .sub r1 r2 => renderArith "SUB".toList r1 r2
  | .mul r1 r2 => renderArith "MUL".toList r1 r2
  | .div r1 r2 => renderArith "DIV".toList r1 r2
  | .inp tr => "IN ".toList ++ [tr.letter]
  | .out tr => "OUT ".toList ++ [tr.letter]
  | .reserved5 => renderUnknown 5
  | .reserved6 => renderUnknown 6
  | .reserved7 => renderUnknown 7

/-- One byte's line (R90): it never fails (R92). -/
def disassembleByte (p : IoBit3Policy) (b : Byte) : Text :=
  match decode p b with
  | .instr i => render i
  | .unknown4 => renderUnknown 4

/-- `disassemble` (R90): one line for each byte, index 0 first. -/
def disassemble (p : IoBit3Policy) (bytes : List Byte) : List Text := bytes.map (disassembleByte p)

end Sys2Proof.Machine
end

