-- ==== Sys2Proof/Machine/HostPort.lean ====
section
/-! DEFINITION. What the host may do and what it gets back (spec/42_io.md R145): load, deliver, read the result. None of
these is a step of the core. -/

namespace Sys2Proof.Machine

/-- The start of a run of the program `bytes` under a policy (70_reset_and_hazards.md R190, R194): the reset state with PROG
placed. It takes no earlier state: only a new run leaves a terminal state (R166), and no register is carried over (R23). -/
def State.boot (bytes : List Byte) (p : IoBit3Policy) : State :=
  { State.reset with prog := Memory.ofBytes bytes, policy := p }

/-- The host delivers one input event (R140, R145), after those it has delivered before. -/
def State.deliver (s : State) (e : InEvent) : State := { s with input := s.input ++ [e] }

/-- The core's request for one line (R145): the running machine is held at an IN with nothing delivered (10_state.md R33). -/
def State.waiting (s : State) : Bool :=
  match s.status, s.fetch, s.input with
  | .running, some b, [] =>
    match decode s.policy b with
    | .instr (.inp _) => true
    | _ => false
  | _, _, _ => false

/-- The result of a run (10_state.md R37). -/
inductive RunResult where
  /-- The final values of a, b, c and d, on normal completion. -/
  | ok (a b c d : Byte)
  /-- The fault record; the registers are no part of this result (60_exceptions.md R167). -/
  | err (f : FaultRecord)
deriving DecidableEq, Repr

/-- The result, when the run is over (R37); `none` while it is Running. -/
def State.result (s : State) : Option RunResult :=
  match s.status, s.fault with
  | .faulted _, some f => some (.err f)
  | .halted, _ => some (.ok s.regs.a s.regs.b s.regs.c s.regs.d)
  | _, _ => none

/-- The values the host has received from OUT, in order (R141). -/
def outputsOf : List IoEvent → List Byte
  | [] => []
  | .out v :: io => v :: outputsOf io
  | .inp _ :: io => outputsOf io

/-- The events that INs have consumed, in order (R140). -/
def consumedOf : List IoEvent → List InEvent
  | [] => []
  | .inp e :: io => e :: consumedOf io
  | .out _ :: io => consumedOf io

/-- At most `n` steps of a run: it ends where no step is enabled. -/
def runFor : Nat → State → State
  | 0, s => s
  | n + 1, s =>
    match step s with
    | .next t => runFor n t
    | .fault _ => s
    | .refused _ => s

end Sys2Proof.Machine
end

