-- ==== Sys2Proof/Safety.lean ====
section
/-! DEFINITION. The terms in which claims are made: frames, the register sets of spec/10_state.md R21, the invariant
of the machine, and the grammar of a literal. -/

namespace Sys2Proof.Machine

/-- Every byte of the program space reads as before, its length and the policy are as before (20_memory.md R42). -/
def ProgramKept (s t : State) : Prop :=
  (∀ k, t.prog.read k = s.prog.read k) ∧ t.progLen = s.progLen ∧ t.policy = s.policy

/-- Every register but `r` holds what it held. -/
def RegsKeptBut (r : Reg) (s t : State) : Prop := ∀ q, q ≠ r → t.getReg q = s.getReg q

/-- Every register holds what it held. -/
def RegsKept (s t : State) : Prop := ∀ q, t.getReg q = s.getReg q

/-- Nothing was received or emitted. -/
def ChannelsKept (s t : State) : Prop := t.io = s.io ∧ t.input = s.input

/-- The frame of an instruction that completes by writing the register `r`: no other register, one step of the pc, no fault
taken, nothing received or emitted, every byte of the program as before. -/
def CompletesWriting (r : Reg) (s t : State) : Prop :=
  RegsKeptBut r s t ∧ t.pc = s.pc + 1 ∧ t.fault = s.fault ∧ ChannelsKept s t ∧ ProgramKept s t

/-- The frame of an instruction that takes a fault and consumes no event (60_exceptions.md R162): the record is set, no
register is written, the pc stays, nothing is received or emitted, every byte of the program is as before. -/
def TakesFault (reason : FaultReason) (opc : Option (BitVec 3)) (s t : State) : Prop :=
  t.fault = some { reason := reason, pc := s.pc, opc := opc } ∧ t.status = .faulted reason ∧
    RegsKept s t ∧ t.pc = s.pc ∧ ChannelsKept s t ∧ ProgramKept s t

/-- The registers an instruction writes when it completes (10_state.md R21). -/
def writesOf : Instr → List Reg
  | .movi _ => [.a]
  | .add r1 _ => [r1]
  | .sub r1 _ => [r1]
  | .mul r1 _ => [r1]
  | .div r1 _ => [r1]
  | .inp tr => [tr]
  | .out _ => []
  | .reserved5 => []
  | .reserved6 => []
  | .reserved7 => []

/-- The registers an instruction reads (R21, with both operands of the arithmetic instructions: C3). -/
def readsOf : Instr → List Reg
  | .movi _ => []
  | .add r1 r2 => [r1, r2]
  | .sub r1 r2 => [r1, r2]
  | .mul r1 r2 => [r1, r2]
  | .div r1 r2 => [r1, r2]
  | .inp _ => []
  | .out tr => [tr]
  | .reserved5 => []
  | .reserved6 => []
  | .reserved7 => []

/-- The opcode of an unknown verdict of the decoder (30_encoding.md R70, R71); `none` for a defined instruction. -/
def unknownOpcodeOf : Decoded → Option (BitVec 3)
  | .unknown4 => some 4#3
  | .instr .reserved5 => some 5#3
  | .instr .reserved6 => some 6#3
  | .instr .reserved7 => some 7#3
  | .instr _ => none

/-- The class of a verdict, as the table of 30_encoding.md R76 counts them. -/
def classOf : Decoded → String
  | .instr (.movi _) => "MOVI"
  | .instr (.add _ _) => "ADD"
  | .instr (.sub _ _) => "SUB"
  | .instr (.mul _ _) => "MUL"
  | .instr (.div _ _) => "DIV"
  | .instr (.inp _) => "IN"
  | .instr (.out _) => "OUT"
  | .instr .reserved5 => "Unknown"
  | .instr .reserved6 => "Unknown"
  | .instr .reserved7 => "Unknown"
  | .unknown4 => "Unknown"

/-- How many of the 256 bytes fall in a class under a policy (R76). -/
def population (p : IoBit3Policy) (name : String) : Nat :=
  (List.range 256).countP fun n => classOf (decode p (BitVec.ofNat 8 n)) == name

/-- The fault record names the instruction at the pc, and that instruction raises this fault (60_exceptions.md R160, R162). -/
def FaultRecord.ExplainedBy (f : FaultRecord) (s : State) : Prop :=
  f.pc = s.pc ∧ ∃ b, s.fetch = some b ∧
    match f.reason with
    | .divisionByZero =>
      f.opc = none ∧ ∃ r1 r2, decode s.policy b = .instr (.div r1 r2) ∧ s.getReg r2 = 0#8
    | .unknownOpcode => f.opc.isSome = true ∧ unknownOpcodeOf (decode s.policy b) = f.opc
    | .inputStream => f.opc = none ∧ ∃ tr, decode s.policy b = .instr (.inp tr)

/-- The invariant of the machine: the program space is one flat sequence, the pc is in 0..L (10_state.md R26), a fault
record is explained by the instruction at the pc (60_exceptions.md R163), and an end of stream was consumed exactly when the
record says InputStreamFault (42_io.md R142). -/
structure State.Inv (s : State) : Prop where
  prog_wf : s.prog.wf = true
  pc_le : s.pc ≤ s.progLen
  fault_explained : ∀ f, s.fault = some f → f.ExplainedBy s
  end_of_stream_iff : IoEvent.inp .endOfStream ∈ s.io ↔ ∃ f, s.fault = some f ∧ f.reason = .inputStream

/-- The program holds only bytes that an encoder writes (30_encoding.md R69, R74), as an assembled program does. -/
def EncoderWritten (m : Memory) : Prop := ∀ k b, m.read k = some b → ∃ i, encode i = some b

/-- Whether a verdict is an IN. -/
def isInput : Decoded → Bool
  | .instr (.inp _) => true
  | _ => false

/-- How many bytes at the indices pc..L-1 decode to an IN: the most events that the rest of a run can consume
(70_reset_and_hazards.md R199). -/
def State.inputsLeft (s : State) : Nat :=
  (List.range' s.pc (s.progLen - s.pc)).countP fun k => (s.prog.read k).any fun b => isInput (decode s.policy b)

/-- Decimal digits as text, the most significant first. -/
def digitText (ds : List (Fin 10)) : Text := ds.map fun d => Nat.digitChar d

/-- The number that decimal digits write, the most significant first. -/
def digitValue (ds : List (Fin 10)) : Nat := Nat.ofDigits 10 (ds.reverse.map Fin.val)

/-- The grammar of MOVI's literal and its value (30_encoding.md R83, D22), said without the assembler: the whole token is no
sign, a `+` or a `-`, then one or more decimal digits. -/
def DecimalLiteral (tok : Text) (v : Int) : Prop :=
  ∃ ds : List (Fin 10), ds ≠ [] ∧
    ((tok = digitText ds ∧ v = digitValue ds) ∨ (tok = '+' :: digitText ds ∧ v = digitValue ds) ∨
      (tok = '-' :: digitText ds ∧ v = -digitValue ds))

/-- The source line of a representable instruction, in the assembler's spelling (30_encoding.md R83 to R85): MOVI without the
`#` that the disassembler writes (R91, C8). -/
def sourceLine : Instr → Text
  | .movi imm7 => "MOVI ".toList ++ decimal imm7.toNat
  | i => render i

end Sys2Proof.Machine
end

