-- ==== Sys2Proof/Certificates/Slice0/Obligations.lean ====
section
/-! DEFINITION. The statements for the provers: what the rules of the spec say the machine does, as propositions about the
model. The docstrings cite the rule; OBLIGATIONS.json lists them. -/

open Sys2Proof Sys2Proof.Machine

/-! ## The codec -/

/-- A few bytes written out from the encodings of 30_encoding.md (R63, R65, R66, R71) decode to the instructions they stand
for (95_test_vectors.md section 2). -/
def Obligations.SampleWordsDecode : Prop :=
  ∀ p,
    decode p 0b01111111#8 = .instr (.movi 127#7) ∧ decode p 0b10001110#8 = .instr (.add .d .c) ∧
    decode p 0b10011011#8 = .instr (.sub .c .d) ∧ decode p 0b10100101#8 = .instr (.mul .b .b) ∧
    decode p 0b10110100#8 = .instr (.div .b .a) ∧ decode p 0b11000001#8 = .instr (.inp .b) ∧
    decode p 0b11000110#8 = .instr (.out .c) ∧ decode p 0b11010011#8 = .instr .reserved5 ∧
    decode p 0b11100101#8 = .instr .reserved6 ∧ decode p 0b11111111#8 = .instr .reserved7

/-- R62: the shift-and-mask fields are the bit ranges. -/
def Obligations.FieldsAreBitRanges : Prop :=
  ∀ b : Byte,
    layoutField b = b.extractLsb' 7 1 ∧ imm7Field b = b.extractLsb' 0 7 ∧ opcField b = b.extractLsb' 4 3 ∧
    r1Field b = b.extractLsb' 2 2 ∧ r2Field b = b.extractLsb' 0 2 ∧ rsvdField b = b.extractLsb' 3 1 ∧
    dirField b = b.extractLsb' 2 1 ∧ trField b = b.extractLsb' 0 2

/-- R20: a, b, c, d have the codes 0 to 3 in that order, every 2-bit code names a register, and each register is 0 at reset. -/
def Obligations.RegisterCodesInOrder : Prop :=
  Reg.code .a = 0#2 ∧ Reg.code .b = 1#2 ∧ Reg.code .c = 2#2 ∧ Reg.code .d = 3#2 ∧
  (∀ v : BitVec 2, (Reg.ofCode v).code = v) ∧ (∀ r : Reg, Reg.ofCode r.code = r) ∧
  ∀ r, State.reset.getReg r = 0#8

/-- R61, R63: bit 7 clear is layout A, which holds MOVI alone with its immediate in bits 6..0; bit 7 set is never a MOVI. -/
def Obligations.LayoutBitSelectsMovi : Prop :=
  ∀ p (b : Byte),
    (b.getLsbD 7 = false → decode p b = .instr (.movi (b.extractLsb' 0 7))) ∧
    (b.getLsbD 7 = true → ∀ v, decode p b ≠ .instr (.movi v))

/-- The opcode map of layout B (R64). That opcode 4 with bit 3 set is Unknown(4) under UNKNOWN is no part of R64: it is R69
with decision D3 (the policy is a field of the state, log 2; the verdict's place in the syntax, log 7). -/
def Obligations.OpcodeMapOfLayoutB : Prop :=
  ∀ p (b : Byte), b.getLsbD 7 = true →
    (b.extractLsb' 4 3 = 0#3 → ∃ r1 r2, decode p b = .instr (.add r1 r2)) ∧
    (b.extractLsb' 4 3 = 1#3 → ∃ r1 r2, decode p b = .instr (.sub r1 r2)) ∧
    (b.extractLsb' 4 3 = 2#3 → ∃ r1 r2, decode p b = .instr (.mul r1 r2)) ∧
    (b.extractLsb' 4 3 = 3#3 → ∃ r1 r2, decode p b = .instr (.div r1 r2)) ∧
    (b.extractLsb' 4 3 = 4#3 →
      (∃ tr, decode p b = .instr (.inp tr)) ∨ (∃ tr, decode p b = .instr (.out tr)) ∨
        (p = .unknown ∧ b.getLsbD 3 = true ∧ decode p b = .unknown4)) ∧
    (b.extractLsb' 4 3 = 5#3 → decode p b = .instr .reserved5) ∧
    (b.extractLsb' 4 3 = 6#3 → decode p b = .instr .reserved6) ∧
    (b.extractLsb' 4 3 = 7#3 → decode p b = .instr .reserved7)

/-- R65: the arithmetic sub-format, r1 in bits 3..2 and r2 in bits 1..0, every combination valid. -/
def Obligations.ArithmeticFormatFields : Prop :=
  ∀ p (b : Byte) (r1 r2 : Reg), r1 = Reg.ofCode (b.extractLsb' 2 2) → r2 = Reg.ofCode (b.extractLsb' 0 2) →
    (b.extractLsb' 4 4 = 0b1000#4 → decode p b = .instr (.add r1 r2)) ∧
    (b.extractLsb' 4 4 = 0b1001#4 → decode p b = .instr (.sub r1 r2)) ∧
    (b.extractLsb' 4 4 = 0b1010#4 → decode p b = .instr (.mul r1 r2)) ∧
    (b.extractLsb' 4 4 = 0b1011#4 → decode p b = .instr (.div r1 r2))

/-- R66 and the two policies of R69 (decision D3): bit 2 selects IN or OUT and bits 1..0 the register; bit 3 set changes
nothing under IGNORE and gives Unknown(4) under UNKNOWN. -/
def Obligations.IoFormatUnderBothPolicies : Prop :=
  ∀ (b : Byte), b.extractLsb' 4 4 = 0b1100#4 →
    (∀ p, b.getLsbD 3 = false ∨ p = .ignore →
      decode p b = if b.getLsbD 2 then .instr (.out (Reg.ofCode (b.extractLsb' 0 2)))
        else .instr (.inp (Reg.ofCode (b.extractLsb' 0 2)))) ∧
    (b.getLsbD 3 = true → decode .unknown b = .unknown4)

/-- R71: exactly the bytes 0xD0..0xFF, and under UNKNOWN also 0xC8..0xCF, decode to an unknown verdict, with the opcode of
bits 6..4; a running step at such a byte faults at once without moving the pc; the disassembler renders it (its text is in
DisassemblyInvertsAssembly) and goes on. -/
def Obligations.UnknownEncodingsFaultWhenExecuted : Prop :=
  ∀ p (b : Byte),
    ((unknownOpcodeOf (decode p b)).isSome = true ↔
      0xD0 ≤ b.toNat ∨ (p = .unknown ∧ 0xC8 ≤ b.toNat ∧ b.toNat ≤ 0xCF)) ∧
    (∀ k, unknownOpcodeOf (decode p b) = some k →
      k = b.extractLsb' 4 3 ∧
      (∀ s : State, s.policy = p → s.status = .running → s.fetch = some b →
        ∃ t, step s = .next t ∧ t.status = .faulted .unknownOpcode ∧ t.pc = s.pc) ∧
      (∀ before after, disassemble p (before ++ b :: after) =
        disassemble p before ++ renderUnknown k.toNat :: disassemble p after))

/-- R76: the population of the byte space under both policies. -/
def Obligations.BytePopulation : Prop :=
  (∀ p, population p "MOVI" = 128 ∧ population p "ADD" = 16 ∧ population p "SUB" = 16 ∧ population p "MUL" = 16 ∧
    population p "DIV" = 16) ∧
  population .ignore "IN" = 8 ∧ population .ignore "OUT" = 8 ∧ population .ignore "Unknown" = 48 ∧
  population .unknown "IN" = 4 ∧ population .unknown "OUT" = 4 ∧ population .unknown "Unknown" = 56

/-- The first codec law of R75: decoding the byte of any representable instruction, with every operand at every value, gives
it back under both policies; and the byte is the only one the encoder has for it. -/
def Obligations.DecodeInvertsEncode : Prop :=
  ∀ i : Instr, i.wellFormed = true →
    ∃ b, encode i = some b ∧ (∀ p, decode p b = .instr i) ∧
      ∀ j, j.wellFormed = true → encode j = some b → j = i

/-- The converse codec law of R75 (an inference of the spec): a byte that does not decode to Unknown is encoded back, except
that an IO byte with bit 3 set comes back with bit 3 clear. -/
def Obligations.EncodeInvertsDecode : Prop :=
  ∀ p (b : Byte),
    match decode p b with
    | .unknown4 => True
    | .instr i =>
      (i.wellFormed = false ↔ (unknownOpcodeOf (.instr i)).isSome = true) ∧
      (i.wellFormed = true →
        encode i = some (if b.extractLsb' 3 5 = 0b11001#5 then b - 8#8 else b))

/-- R74: the encoders, as numbers, with their errors; the IO encoder leaves bit 3 clear; the register operands are the letters
a, b, c and d. -/
def Obligations.EncodersFollowTheLayout : Prop :=
  (∀ v : Int, (0 ≤ v ∧ v ≤ 127 → ∃ b, encodeMovi v = .ok b ∧ (b.toNat : Int) = v) ∧
    (¬ (0 ≤ v ∧ v ≤ 127) → encodeMovi v = .error .rangeError)) ∧
  (∀ op (r1 r2 : Reg), ∃ b, encodeArithmetic op r1.letter r2.letter = .ok b ∧
    b.toNat = 0x80 + op.opc.toNat * 16 + r1.code.toNat * 4 + r2.code.toNat) ∧
  (∀ op (c1 c2 : Char), (∀ r : Reg, c1 ≠ r.letter) ∨ (∀ r : Reg, c2 ≠ r.letter) →
    encodeArithmetic op c1 c2 = .error .invalidRegisterError) ∧
  (∀ dir (r : Reg), ∃ b, encodeIo dir r.letter = .ok b ∧
    b.toNat = 0xC0 + dir.bit.toNat * 4 + r.code.toNat ∧ b.getLsbD 3 = false) ∧
  (∀ dir (ch : Char), (∀ r : Reg, ch ≠ r.letter) → encodeIo dir ch = .error .invalidRegisterError) ∧
  AluOp.opc .add = 0#3 ∧ AluOp.opc .sub = 1#3 ∧ AluOp.opc .mul = 2#3 ∧ AluOp.opc .div = 3#3 ∧
  Dir.bit .input = 0#1 ∧ Dir.bit .output = 1#1 ∧
  Reg.letter .a = 'a' ∧ Reg.letter .b = 'b' ∧ Reg.letter .c = 'c' ∧ Reg.letter .d = 'd'

/-! ## The blocks as hardware -/

/-- The decoder's outputs (R73, decision D1): exactly one class output is 1 for every byte, and the outputs carry what the
decoder of R70 answers. -/
def Obligations.DecoderOutputsAgree : Prop :=
  ∀ p (b : Byte),
    [(decoderOut p b).isMovi, (decoderOut p b).isAlu, (decoderOut p b).isIn, (decoderOut p b).isOut,
      (decoderOut p b).isUnknown].count true = 1 ∧
    match decode p b with
    | .instr (.movi v) => (decoderOut p b).isMovi = true ∧ v = (decoderOut p b).imm7 ∧ (decoderOut p b).layout = 0#1
    | .instr (.add r1 r2) => (decoderOut p b).isAlu = true ∧ AluOp.ofBits (decoderOut p b).aluOp = .add ∧
        r1.code = (decoderOut p b).r1 ∧ r2.code = (decoderOut p b).r2
    | .instr (.sub r1 r2) => (decoderOut p b).isAlu = true ∧ AluOp.ofBits (decoderOut p b).aluOp = .sub ∧
        r1.code = (decoderOut p b).r1 ∧ r2.code = (decoderOut p b).r2
    | .instr (.mul r1 r2) => (decoderOut p b).isAlu = true ∧ AluOp.ofBits (decoderOut p b).aluOp = .mul ∧
        r1.code = (decoderOut p b).r1 ∧ r2.code = (decoderOut p b).r2
    | .instr (.div r1 r2) => (decoderOut p b).isAlu = true ∧ AluOp.ofBits (decoderOut p b).aluOp = .div ∧
        r1.code = (decoderOut p b).r1 ∧ r2.code = (decoderOut p b).r2
    | .instr (.inp tr) => (decoderOut p b).isIn = true ∧ tr.code = (decoderOut p b).r2 ∧ (decoderOut p b).dir = 0#1
    | .instr (.out tr) => (decoderOut p b).isOut = true ∧ tr.code = (decoderOut p b).r2 ∧ (decoderOut p b).dir = 1#1
    | d => (decoderOut p b).isUnknown = true ∧ unknownOpcodeOf d = some (decoderOut p b).unkOpc

/-- The blocks of decision D1 (R22, R73, R110), wired as log 14 says, realise the step of R36 with its IN, OUT and fault paths
(R142, R143, R162): a running step is the datapath's next state, for every byte and every state. -/
def Obligations.DatapathRealisesStep : Prop :=
  ∀ (s : State) (b : Byte), s.status = .running → s.fetch = some b → step s = .next (datapath b s)

/-- The ALU's table (R110, R116; the floor quotient is G1, log 11): ADD, SUB and MUL are total and wrap modulo 256; DIV gives
the quotient, at most the dividend, and has no value exactly when `dz` is 1, which is exactly at a zero divisor. -/
def Obligations.AluComputesModulo256 : Prop :=
  ∀ x y : Byte,
    (∃ v, aluY .add x y = some v ∧ v.toNat = (x.toNat + y.toNat) % 256) ∧
    (∃ v, aluY .sub x y = some v ∧ v.toNat = if y.toNat ≤ x.toNat then x.toNat - y.toNat else x.toNat + 256 - y.toNat) ∧
    (∃ v, aluY .mul x y = some v ∧ v.toNat = x.toNat * y.toNat % 256) ∧
    (y ≠ 0#8 → ∃ v, aluY .div x y = some v ∧ v.toNat = x.toNat / y.toNat ∧ v.toNat ≤ x.toNat) ∧
    (y = 0#8 → aluY .div x y = none) ∧
    (∀ op, aluDz op y = true ↔ op = .div ∧ y = 0#8)

/-! ## The instructions -/

/-- R100: MOVI. Its encodings, its assembly and disassembly, and its effect with its frame; it raises nothing. -/
def Obligations.MoviWritesImmediate : Prop :=
  (∀ p (b : Byte), b &&& 0x80#8 = 0x00#8 → decode p b = .instr (.movi (b.extractLsb' 0 7))) ∧
  (∀ v : BitVec 7, assembleLine ("MOVI ".toList ++ decimal v.toNat) = .ok (some (0#1 ++ v)) ∧
    ∀ p, disassembleByte p (0#1 ++ v) = "MOVI #".toList ++ decimal v.toNat) ∧
  (∀ (v : BitVec 7) (s : State), ∃ t, exec (.movi v) s = .next t ∧
    (t.getReg .a).toNat = v.toNat ∧ (t.getReg .a).getLsbD 7 = false ∧ CompletesWriting .a s t)

/-- R112: ADD. Its encodings, its assembly and disassembly, and its effect with its frame for every pair of registers, equal
ones included. -/
def Obligations.AddWrapsModulo256 : Prop :=
  (∀ p (b : Byte), b &&& 0xF0#8 = 0x80#8 →
    decode p b = .instr (.add (Reg.ofCode (b.extractLsb' 2 2)) (Reg.ofCode (b.extractLsb' 0 2)))) ∧
  (∀ r1 r2 : Reg, ∃ b, encode (.add r1 r2) = some b ∧
    assembleLine ("ADD ".toList ++ [r1.letter, ',', r2.letter]) = .ok (some b) ∧
    ∀ p, disassembleByte p b = "ADD ".toList ++ [r1.letter, ',', r2.letter]) ∧
  (∀ (r1 r2 : Reg) (s : State), ∃ t, exec (.add r1 r2) s = .next t ∧
    (t.getReg r1).toNat = ((s.getReg r1).toNat + (s.getReg r2).toNat) % 256 ∧ CompletesWriting r1 s t)

/-- R113: SUB. Its encodings, its assembly and disassembly, and its effect with its frame. -/
def Obligations.SubWrapsModulo256 : Prop :=
  (∀ p (b : Byte), b &&& 0xF0#8 = 0x90#8 →
    decode p b = .instr (.sub (Reg.ofCode (b.extractLsb' 2 2)) (Reg.ofCode (b.extractLsb' 0 2)))) ∧
  (∀ r1 r2 : Reg, ∃ b, encode (.sub r1 r2) = some b ∧
    assembleLine ("SUB ".toList ++ [r1.letter, ',', r2.letter]) = .ok (some b) ∧
    ∀ p, disassembleByte p b = "SUB ".toList ++ [r1.letter, ',', r2.letter]) ∧
  (∀ (r1 r2 : Reg) (s : State), ∃ t, exec (.sub r1 r2) s = .next t ∧
    (t.getReg r1).toNat = (if (s.getReg r2).toNat ≤ (s.getReg r1).toNat then (s.getReg r1).toNat - (s.getReg r2).toNat
      else (s.getReg r1).toNat + 256 - (s.getReg r2).toNat) ∧ CompletesWriting r1 s t)

/-- R114: MUL. Its encodings, its assembly and disassembly, and its effect with its frame. -/
def Obligations.MulKeepsLowByte : Prop :=
  (∀ p (b : Byte), b &&& 0xF0#8 = 0xA0#8 →
    decode p b = .instr (.mul (Reg.ofCode (b.extractLsb' 2 2)) (Reg.ofCode (b.extractLsb' 0 2)))) ∧
  (∀ r1 r2 : Reg, ∃ b, encode (.mul r1 r2) = some b ∧
    assembleLine ("MUL ".toList ++ [r1.letter, ',', r2.letter]) = .ok (some b) ∧
    ∀ p, disassembleByte p b = "MUL ".toList ++ [r1.letter, ',', r2.letter]) ∧
  (∀ (r1 r2 : Reg) (s : State), ∃ t, exec (.mul r1 r2) s = .next t ∧
    (t.getReg r1).toNat = (s.getReg r1).toNat * (s.getReg r2).toNat % 256 ∧ CompletesWriting r1 s t)

/-- DIV (R115) by a register that is not 0 completes with the quotient; the floor is the spec's general knowledge (G1, log 11). -/
def Obligations.DivWritesQuotient : Prop :=
  (∀ p (b : Byte), b &&& 0xF0#8 = 0xB0#8 →
    decode p b = .instr (.div (Reg.ofCode (b.extractLsb' 2 2)) (Reg.ofCode (b.extractLsb' 0 2)))) ∧
  (∀ r1 r2 : Reg, ∃ b, encode (.div r1 r2) = some b ∧
    assembleLine ("DIV ".toList ++ [r1.letter, ',', r2.letter]) = .ok (some b) ∧
    ∀ p, disassembleByte p b = "DIV ".toList ++ [r1.letter, ',', r2.letter]) ∧
  (∀ (r1 r2 : Reg) (s : State), s.getReg r2 ≠ 0#8 → ∃ t, exec (.div r1 r2) s = .next t ∧
    (t.getReg r1).toNat = (s.getReg r1).toNat / (s.getReg r2).toNat ∧ CompletesWriting r1 s t)

/-- DIV by a register that holds 0 (R115, R162) takes DivisionByZeroFault, whatever the dividend, with no write and the pc
unchanged; the record's contents are decision D7 (log 10). -/
def Obligations.DivByZeroTakesFault : Prop :=
  ∀ (r1 r2 : Reg) (s : State), s.getReg r2 = 0#8 →
    ∃ t, exec (.div r1 r2) s = .next t ∧ TakesFault .divisionByZero none s t

/-- R111 and R196 (decision D13, log 13): with the same register as both operands, both are its old value. -/
def Obligations.SameRegisterUsesOldValue : Prop :=
  ∀ (r : Reg) (s : State),
    (∃ t, exec (.add r r) s = .next t ∧ (t.getReg r).toNat = 2 * (s.getReg r).toNat % 256) ∧
    (∃ t, exec (.sub r r) s = .next t ∧ t.getReg r = 0#8) ∧
    (∃ t, exec (.mul r r) s = .next t ∧ (t.getReg r).toNat = (s.getReg r).toNat ^ 2 % 256) ∧
    (s.getReg r ≠ 0#8 → ∃ t, exec (.div r r) s = .next t ∧ t.getReg r = 1#8 ∧ t.fault = s.fault) ∧
    (s.getReg r = 0#8 → ∃ t, exec (.div r r) s = .next t ∧ t.status = .faulted .divisionByZero ∧ t.getReg r = 0#8)

/-- IN with a line delivered (R142; the recorded event is decision D9): it consumes the oldest event, records it, writes the
clamped value to its register and goes on. -/
def Obligations.InStoresDeliveredLine : Prop :=
  ∀ (tr : Reg) (s : State) (line : Text) (rest : List InEvent), s.input = .line line :: rest →
    ∃ t, exec (.inp tr) s = .next t ∧ t.getReg tr = clampInput (Config.parseInt line) ∧ RegsKeptBut tr s t ∧
      t.pc = s.pc + 1 ∧ t.fault = s.fault ∧ t.io = s.io ++ [.inp (.line line)] ∧ t.input = rest ∧ ProgramKept s t

/-- IN at the end of the stream (R142, R160, C9; decisions D7 and D9): the event is consumed and recorded, InputStreamFault is
taken, no register is written and the pc stays. -/
def Obligations.InAtEndOfStreamTakesFault : Prop :=
  ∀ (tr : Reg) (s : State) (rest : List InEvent), s.input = .endOfStream :: rest →
    ∃ t, exec (.inp tr) s = .next t ∧ t.fault = some { reason := .inputStream, pc := s.pc, opc := none } ∧
      t.status = .faulted .inputStream ∧ RegsKept s t ∧ t.pc = s.pc ∧
      t.io = s.io ++ [.inp .endOfStream] ∧ t.input = rest ∧ ProgramKept s t

/-- IN with nothing delivered is held (R33, R140, R176; the held step to the same state is the model's choice, log 4): all
state survives the wait, any number of turns of it, and only a delivery lifts it: then exactly that event is consumed. -/
def Obligations.InWaitsForDelivery : Prop :=
  (∀ (tr : Reg) (s : State), s.input = [] → exec (.inp tr) s = .next s) ∧
  (∀ (s : State) (n : Nat), s.waiting = true → runFor n s = s) ∧
  (∀ (s : State) (e : InEvent), s.waiting = true →
    ∃ t, step (s.deliver e) = .next t ∧ t ≠ s ∧ t.io = s.io ++ [.inp e] ∧ t.input = [])

/-- OUT (R143; the record in the history is decision D9): its encodings with bit 3 clear, its assembly and disassembly, and
its effect: the full 8-bit value is emitted and nothing else changes but the pc. -/
def Obligations.OutEmitsRegister : Prop :=
  (∀ p (b : Byte), b &&& 0xFC#8 = 0xC4#8 → decode p b = .instr (.out (Reg.ofCode (b.extractLsb' 0 2)))) ∧
  (∀ tr : Reg, ∃ b, encode (.out tr) = some b ∧
    assembleLine ("OUT ".toList ++ [tr.letter]) = .ok (some b) ∧
    ∀ p, disassembleByte p b = "OUT ".toList ++ [tr.letter]) ∧
  (∀ (tr : Reg) (s : State), ∃ t, exec (.out tr) s = .next t ∧ t.io = s.io ++ [.out (s.getReg tr)] ∧
    RegsKept s t ∧ t.pc = s.pc + 1 ∧ t.fault = s.fault ∧ t.input = s.input ∧ ProgramKept s t)

/-- R144: the value IN stores for any line, whatever the host's parser answers: the parsed integer if it is in 0..127, else 0;
never above 127. -/
def Obligations.InputValueClampsToZero : Prop :=
  ∀ line : Text,
    (match Config.parseInt line with
      | none => inValue line = 0#8
      | some n => ((inValue line).toNat : Int) = if 0 ≤ n ∧ n ≤ 127 then n else 0) ∧
    (inValue line).toNat ≤ 127

/-- The reserved opcodes 5, 6 and 7 (R164): their effect is to take UnknownOpcodeFault with their opcode; and a running step at
a byte that decodes to Unknown(4) (R69, decision D3) takes it with opcode 4. The record's contents are decision D7. -/
def Obligations.UnknownOpcodesTakeFault : Prop :=
  (∀ s : State, ∃ t, exec .reserved5 s = .next t ∧ TakesFault .unknownOpcode (some 5#3) s t) ∧
  (∀ s : State, ∃ t, exec .reserved6 s = .next t ∧ TakesFault .unknownOpcode (some 6#3) s t) ∧
  (∀ s : State, ∃ t, exec .reserved7 s = .next t ∧ TakesFault .unknownOpcode (some 7#3) s t) ∧
  (∀ (s : State) (b : Byte), s.status = .running → s.fetch = some b → decode s.policy b = .unknown4 →
    ∃ t, step s = .next t ∧ TakesFault .unknownOpcode (some 4#3) s t)

/-- The read and write sets of R21: no register is hardwired or has an alias; every instruction writes only the registers R21
lists for it, and what it does depends only on the registers R21 lists as read: with the same values there, any two register
files give the same pc, fault, history and pending input, and the same written values where it completes. That an IN with
nothing delivered answers a next state is the model's choice (log 4); that the file is left alone by that wait and by a fault
is R33 and R162. -/
def Obligations.RegisterReadAndWriteSets : Prop :=
  (∀ (s : State) (r q : Reg) (v : Byte), (s.setReg r v).getReg q = if q = r then v else s.getReg q) ∧
  (∀ (i : Instr) (s : State), ∃ t, exec i s = .next t ∧ (∀ q, q ∉ writesOf i → t.getReg q = s.getReg q) ∧
    ∀ x : Regs, (∀ r ∈ readsOf i, x.get r = s.getReg r) →
      ∃ u, exec i { s with regs := x } = .next u ∧ u.pc = t.pc ∧ u.fault = t.fault ∧ u.io = t.io ∧ u.input = t.input ∧
        (t.pc = s.pc + 1 → ∀ q ∈ writesOf i, u.getReg q = t.getReg q) ∧
        (t.pc = s.pc → u.regs = x))

/-! ## Faults -/

/-- The numeric codes of R160 (labels of decision D6): 0 for no record, 1, 2 and 3. -/
def Obligations.FaultCodesAreDistinctLabels : Prop :=
  ∀ s : State,
    (s.faultCode = 0 ↔ s.fault = none) ∧
    (s.faultCode = 1 ↔ s.status = .faulted .divisionByZero) ∧
    (s.faultCode = 2 ↔ s.status = .faulted .unknownOpcode) ∧
    (s.faultCode = 3 ↔ s.status = .faulted .inputStream)

/-- R162 and R163 (an inference of the spec, with D7's record): a step that ends in a fault leaves exactly the state before it
but for the record and, for IN, the consumed end of stream. -/
def Obligations.FaultsArePrecise : Prop :=
  ∀ s t : State, step s = .next t → t.fault ≠ none →
    ∃ reason opc, t.fault = some { reason := reason, pc := s.pc, opc := opc } ∧ t.status = .faulted reason ∧
      (opc.isSome = true ↔ reason = .unknownOpcode) ∧
      t = { s with fault := t.fault, io := t.io, input := t.input } ∧
      (reason ≠ .inputStream → t.io = s.io ∧ t.input = s.input) ∧
      (reason = .inputStream → t.io = s.io ++ [.inp .endOfStream] ∧ s.input = .endOfStream :: t.input)

/-- R160 and R168 (an inference of the spec): each fault has exactly its cause. -/
def Obligations.EachFaultHasItsCause : Prop :=
  ∀ (s t : State) (b : Byte), s.fetch = some b → step s = .next t →
    (t.status = .faulted .divisionByZero ↔
      ∃ r1 r2, decode s.policy b = .instr (.div r1 r2) ∧ s.getReg r2 = 0#8) ∧
    (t.status = .faulted .unknownOpcode ↔ (unknownOpcodeOf (decode s.policy b)).isSome = true) ∧
    (t.status = .faulted .inputStream ↔
      ∃ tr rest, decode s.policy b = .instr (.inp tr) ∧ s.input = .endOfStream :: rest)

/-- R166: Halted and Faulted are terminal: a step there has no next state, it stops under its own name (log 5), and a run of any
length stays where it is. -/
def Obligations.TerminalStatesTakeNoStep : Prop :=
  ∀ s : State,
    (s.status = .halted → step s = .fault .noStepHalted) ∧
    (∀ r, s.status = .faulted r → step s = .fault (.noStepFaulted r)) ∧
    (s.status ≠ .running → ∀ n, runFor n s = s)

/-! ## The step and the run -/

/-- R36: a running step whose fetched byte decodes to an instruction is that instruction's meaning, with nothing added; a
byte that decodes to Unknown(4) is its fault. -/
def Obligations.StepRunsDecodedInstruction : Prop :=
  ∀ (s : State) (b : Byte), s.status = .running → s.fetch = some b →
    (∀ i, decode s.policy b = .instr i → step s = exec i s) ∧
    (decode s.policy b = .unknown4 → step s = execUnknown4 s)

/-- The outcomes of a step (R36): none is refused in any state, and a running machine in a state of the invariant always has
its next state (a faulted state and a turn of IN's wait are next states: the model's choice, log 4 and log 5). -/
def Obligations.EveryRunningStepAnswers : Prop :=
  (∀ (s : State) (r : Refusal), step s ≠ .refused r) ∧
  (∀ s : State, s.Inv → s.status = .running → ∃ t, step s = .next t)

/-- R41: in a state of the invariant (which rules out a pc past L, that no run reaches: log 6), a running step reads PROG at the pc, below L, and no step fetches outside the program. -/
def Obligations.FetchStaysInsideProgram : Prop :=
  ∀ s : State, s.Inv →
    (s.status = .running → s.pc < s.progLen ∧ ∃ b, s.fetch = some b ∧ s.prog.bytes[s.pc]? = some b) ∧
    ∀ k, step s ≠ .fault (.fetchOutsideProgram k)

/-- R28: the status as a function of the state, in states of the invariant; and no step from a terminal one. -/
def Obligations.StatusIsFunctionOfState : Prop :=
  ∀ s : State, s.Inv →
    (s.status = .running ↔ s.pc < s.progLen ∧ s.fault = none) ∧
    (s.status = .halted ↔ s.pc = s.progLen ∧ s.fault = none) ∧
    (∀ r, s.status = .faulted r ↔ ∃ f, s.fault = some f ∧ f.reason = r) ∧
    (s.status ≠ .running → ∀ t, step s ≠ .next t)

/-- R25: a step that takes no fault moves the pc by exactly 1, but for a turn of IN's wait (R33), which changes nothing (a turn
of the wait is a step to the same state: the model's choice, log 4); a step that takes a fault leaves the pc. -/
def Obligations.PcMovesByOne : Prop :=
  ∀ s t : State, step s = .next t →
    (t.fault = none → (s.waiting = false ∧ t.pc = s.pc + 1) ∨ (s.waiting = true ∧ t = s)) ∧
    (t.fault ≠ none → t.pc = s.pc)

/-- R42: the program space is read-only for the whole run, in a run of any length from any state: every index reads as before. -/
def Obligations.ProgramIsReadOnly : Prop :=
  ∀ (n : Nat) (s : State), (runFor n s).prog = s.prog ∧ ∀ k, (runFor n s).prog.read k = s.prog.read k

/-- The I/O history (R34, decision D9; R48): a run only appends to it, and a step appends at most one entry. -/
def Obligations.HistoryOnlyGrows : Prop :=
  (∀ s t : State, step s = .next t → t.io = s.io ∨ ∃ e, t.io = s.io ++ [e]) ∧
  (∀ (n : Nat) (s : State), s.io <+: (runFor n s).io ∧
    outputsOf s.io <+: outputsOf (runFor n s).io)

/-- R140 (events in order, each consumed once): in a run of any length, the events consumed so far (the history is decision D9)
followed by those still pending (the pending list is the model's choice, log 4) are always the events delivered. -/
def Obligations.EventsConsumedOnceInOrder : Prop :=
  ∀ (n : Nat) (s : State),
    consumedOf (runFor n s).io ++ (runFor n s).input = consumedOf s.io ++ s.input

/-- The result of a run (R37): the registers when Halted, the fault record when Faulted, none while Running. -/
def Obligations.ResultFollowsStatus : Prop :=
  ∀ s : State,
    (s.status = .halted → s.result = some (.ok (s.getReg .a) (s.getReg .b) (s.getReg .c) (s.getReg .d))) ∧
    (∀ r, s.status = .faulted r → ∃ f, s.fault = some f ∧ f.reason = r ∧ s.result = some (.err f)) ∧
    (s.status = .running → s.result = none)

/-- Termination (R199, an inference of the spec): from a state of the invariant, if the host answers every IN that can still come
(at most as many bytes at pc..L-1 decode to an IN as there are pending events; with no IN left, none is asked for; the pending
list is the model's choice, log 4), the run is over after at most L - pc steps. -/
def Obligations.RunEndsWithinProgramLength : Prop :=
  ∀ s : State, s.Inv → s.inputsLeft ≤ s.input.length → (runFor (s.progLen - s.pc) s).status ≠ .running

/-- R69's last clause (an inference of the spec): on a program of encoder-written bytes the two policies run alike, for every
input and every length of run. -/
def Obligations.AssembledProgramsIgnorePolicy : Prop :=
  ∀ (bytes : List Byte) (events : List InEvent) (n : Nat), EncoderWritten (Memory.ofBytes bytes) →
    runFor n { State.boot bytes .unknown with input := events } =
      { runFor n { State.boot bytes .ignore with input := events } with policy := .unknown }

/-! ## Reset, the invariant and the host -/

/-- The reset state of any loaded program (R190, R191; pc 0 is decision D4, the absent record D7, the empty history D9): the
registers 0, pc 0, no record, empty history, Running unless the program is empty, the first byte fetched next. With no program
placed it is the model's reset (log 1); the policy there, IGNORE, is R69's default (decision D3), which the model places in the
reset state (log 2). -/
def Obligations.ResetStateOfLoadedProgram : Prop :=
  (∀ (bytes : List Byte) (p : IoBit3Policy),
    (∀ r, (State.boot bytes p).getReg r = 0#8) ∧ (State.boot bytes p).pc = 0 ∧ (State.boot bytes p).fault = none ∧
    (State.boot bytes p).io = [] ∧ (State.boot bytes p).policy = p ∧ (State.boot bytes p).fetch = bytes[0]? ∧
    (State.boot bytes p).progLen = bytes.length ∧
    (State.boot bytes p).status = if bytes.length = 0 then .halted else .running) ∧
  State.reset = State.boot [] IoBit3Policy.default ∧ IoBit3Policy.default = .ignore

/-- R193 (an inference of the spec): an empty program is Halted at reset, executes nothing, and its result is Ok(0, 0, 0, 0). -/
def Obligations.EmptyProgramHaltsAtReset : Prop :=
  ∀ p, (State.boot [] p).status = .halted ∧ (∀ t, step (State.boot [] p) ≠ .next t) ∧
    (State.boot [] p).result = some (.ok 0#8 0#8 0#8 0#8)

/-- The invariant holds at reset, and at the start of a run of any program. -/
def Obligations.InvariantHoldsAtReset : Prop :=
  State.reset.Inv ∧ ∀ (bytes : List Byte) (p : IoBit3Policy), (State.boot bytes p).Inv

/-- Every step keeps the invariant: the program space stays one flat sequence, the pc stays in 0..L (R26), a fault record is
explained by the instruction it names (R162, R163; its contents are decision D7), and the end of the stream is in the history
(decision D9) exactly when the record says InputStreamFault (R142). The invariant is the model's, built from these rules. -/
def Obligations.StepKeepsInvariant : Prop :=
  ∀ s t : State, s.Inv → step s = .next t → t.Inv

/-- The host's delivery (R145; the pending list is the model's, log 4) touches no register, no pc, no record, no history and no
byte of the program, and keeps the invariant and the status. -/
def Obligations.DeliveryTouchesOnlyPendingInput : Prop :=
  ∀ (s : State) (e : InEvent),
    RegsKept s (s.deliver e) ∧ (s.deliver e).pc = s.pc ∧ (s.deliver e).fault = s.fault ∧ (s.deliver e).io = s.io ∧
    ProgramKept s (s.deliver e) ∧ (s.deliver e).status = s.status ∧ (s.deliver e).input = s.input ++ [e] ∧
    (s.Inv → (s.deliver e).Inv)

/-- The host's placement of one instruction (the model's own, log 20): from any state, the next step runs exactly the decoded
instruction, the registers, the pc, the channels and the policy are as before, and so is every other byte of the program. -/
def Obligations.PlacedInstructionRunsNext : Prop :=
  ∀ (s : State) (w : Nat),
    (∀ i, decode s.policy (BitVec.ofNat 8 w) = .instr i →
      step (s.withFetchWord 8 w) = exec i (s.withFetchWord 8 w)) ∧
    RegsKept s (s.withFetchWord 8 w) ∧ (s.withFetchWord 8 w).pc = s.pc ∧ ChannelsKept s (s.withFetchWord 8 w) ∧
    (s.withFetchWord 8 w).policy = s.policy ∧
    (s.prog.wf = true → ∀ k, k < s.progLen → k ≠ s.pc → (s.withFetchWord 8 w).prog.read k = s.prog.read k)

/-! ## The toolchain -/

/-- R80: the comment from the first `;` on and the white space around a line change nothing (which characters are white space is
the model's choice, log 16), and a line with nothing else gives no byte and no error. -/
def Obligations.CommentsAndSpaceAreStripped : Prop :=
  (∀ (line comment : Text), ';' ∉ line → assembleLine (line ++ ';' :: comment) = assembleLine line) ∧
  (∀ (before line after : Text), (∀ ch ∈ before, isSpace ch = true) → (∀ ch ∈ after, isSpace ch = true) →
    assembleLine (before ++ line ++ after) = assembleLine line) ∧
  (∀ blankLine : Text, (∀ ch ∈ blankLine, isSpace ch = true) → assembleLine blankLine = .ok none)

/-- R81 and R86 with decision D17: a line selects the first mnemonic of the fixed ordered list that its upper-case spelling begins
with (upper case is ASCII's, the model's choice for letters outside ASCII, log 16), the operand string is the rest of the
line, and a line that begins with none is UnknownInstruction (the text it carries is the preprocessed line, the model's choice,
log 17). -/
def Obligations.FirstMnemonicPrefixWins : Prop :=
  mnemonicList.map (fun entry => String.ofList entry.1) = ["MOVI", "ADD", "SUB", "MUL", "DIV", "IN", "OUT"] ∧
  (∀ line : Text, recognise mnemonicList line =
    (mnemonicList.find? fun entry => entry.1.isPrefixOf (line.map Char.toUpper)).map
      fun entry => (entry.2, line.drop entry.1.length)) ∧
  (∀ line : Text, preprocess line ≠ [] →
    (∀ entry ∈ mnemonicList, entry.1.isPrefixOf ((preprocess line).map Char.toUpper) = false) →
    assembleLine line = .error (.unknownInstruction (preprocess line)))

/-- R83 with decisions D18 and D22: MOVI takes one token. A token that is no sign, `+` or `-` and then one or more decimal digits is
accepted exactly when its signed value is in 0..127, as that byte; every other token, and any other number of tokens, is
InvalidOperand. -/
def Obligations.MoviOperandIsWholeLiteral : Prop :=
  (∀ toks : List Text, toks.length ≠ 1 → assembleOperands .movi toks = .error .invalidOperand) ∧
  (∀ (tok : Text) (v : Int), DecimalLiteral tok v →
    (0 ≤ v ∧ v ≤ 127 → ∃ b, assembleOperands .movi [tok] = .ok b ∧ (b.toNat : Int) = v) ∧
    (¬ (0 ≤ v ∧ v ≤ 127) → assembleOperands .movi [tok] = .error .invalidOperand)) ∧
  (∀ tok : Text, (∀ v, ¬ DecimalLiteral tok v) → assembleOperands .movi [tok] = .error .invalidOperand)

/-- R84 and R85 with decisions D18 and D19: the register operands. Too few tokens are MissingOperand, too many are refused, a
token is judged by its first character alone, and an accepted line's byte is the encoder's. -/
def Obligations.RegisterOperandsAreChecked : Prop :=
  (∀ op, assembleOperands (.arith op) [] = .error .missingOperand ∧
    (∀ t, assembleOperands (.arith op) [t] = .error .missingOperand) ∧
    (∀ t1 t2 t3 ts, assembleOperands (.arith op) (t1 :: t2 :: t3 :: ts) = .error .extraOperands) ∧
    (∀ (r1 r2 : Reg) (u1 u2 : Text), ∃ b, encodeArithmetic op r1.letter r2.letter = .ok b ∧
      assembleOperands (.arith op) [r1.letter :: u1, r2.letter :: u2] = .ok b) ∧
    (∀ t1 t2 : Text, (∀ r : Reg, t1.head? ≠ some r.letter) ∨ (∀ r : Reg, t2.head? ≠ some r.letter) →
      assembleOperands (.arith op) [t1, t2] = .error .invalidRegister)) ∧
  (∀ dir, assembleOperands (.io dir) [[]] = .error .missingOperand ∧
    (∀ t1 t2 ts, assembleOperands (.io dir) (t1 :: t2 :: ts) = .error .extraOperands) ∧
    (∀ (r : Reg) (u : Text), ∃ b, encodeIo dir r.letter = .ok b ∧
      assembleOperands (.io dir) [r.letter :: u] = .ok b) ∧
    (∀ (ch : Char) (u : Text), (∀ r : Reg, ch ≠ r.letter) →
      assembleOperands (.io dir) [ch :: u] = .error .invalidRegister))

/-- R87 (the bytes kept after a failure are decision D20): a batch stops at the first line that fails and reports its 1-based
number; if none fails, it is the bytes of the lines in order. -/
def Obligations.BatchStopsAtFirstFailure : Prop :=
  (∀ (before after : List Text) (bad : Text) (e : AsmError), (∀ l ∈ before, ∃ r, assembleLine l = .ok r) →
    assembleLine bad = .error e → assembleFile (before ++ bad :: after) = .error (before.length + 1, e)) ∧
  (∀ (lines : List Text) (bytes : List (Option Byte)), lines.map assembleLine = bytes.map .ok →
    assembleFile lines = .ok (bytes.filterMap id))

/-- R93 with R91 and R69's encoder clause: every representable instruction's source line assembles to its byte, and the
disassembler renders that byte back under both policies; and whatever lines assemble, their bytes are encoder-written and
disassemble to the renderings of representable instructions. The text of IN (R91, R142) and of every unknown opcode (R92) is
written out here (that of the others stands in their own statements); its decimals and letters are decision D21. -/
def Obligations.DisassemblyInvertsAssembly : Prop :=
  (∀ i : Instr, i.wellFormed = true → ∃ b, encode i = some b ∧ assembleLine (sourceLine i) = .ok (some b) ∧
    ∀ p, disassembleByte p b = render i) ∧
  (∀ (lines : List Text) (bytes : List Byte), assembleFile lines = .ok bytes →
    ∃ instrs : List Instr, instrs.map encode = bytes.map some ∧
      ∀ p, disassemble p bytes = instrs.map render) ∧
  (∀ tr : Reg, ∃ b, encode (.inp tr) = some b ∧ assembleLine ("IN ".toList ++ [tr.letter]) = .ok (some b) ∧
    ∀ p, disassembleByte p b = "IN ".toList ++ [tr.letter]) ∧
  (∀ p (b : Byte) k, unknownOpcodeOf (decode p b) = some k →
    disassembleByte p b = "??? (Unknown opcode: ".toList ++ [Nat.digitChar k.toNat, ')'])
end

