-- ==== Sys2Proof/Laws/State.lean ====
section
/-! SUPPORT. One lemma for each field of State after each named update. -/

namespace Sys2Proof.Machine

section
variable (s : State) (r : Reg) (v : Byte) (reason : FaultReason) (opc : Option (BitVec 3)) (e : InEvent)

@[simp] theorem setReg_regs : (s.setReg r v).regs = s.regs.set r v := rfl
@[simp] theorem setReg_pc : (s.setReg r v).pc = s.pc := rfl
@[simp] theorem setReg_fault : (s.setReg r v).fault = s.fault := rfl
@[simp] theorem setReg_io : (s.setReg r v).io = s.io := rfl
@[simp] theorem setReg_prog : (s.setReg r v).prog = s.prog := rfl
@[simp] theorem setReg_policy : (s.setReg r v).policy = s.policy := rfl
@[simp] theorem setReg_input : (s.setReg r v).input = s.input := rfl

@[simp] theorem advance_regs : s.advance.regs = s.regs := rfl
@[simp] theorem advance_pc : s.advance.pc = s.pc + 1 := rfl
@[simp] theorem advance_fault : s.advance.fault = s.fault := rfl
@[simp] theorem advance_io : s.advance.io = s.io := rfl
@[simp] theorem advance_prog : s.advance.prog = s.prog := rfl
@[simp] theorem advance_policy : s.advance.policy = s.policy := rfl
@[simp] theorem advance_input : s.advance.input = s.input := rfl

@[simp] theorem raise_regs : (s.raise reason opc).regs = s.regs := rfl
@[simp] theorem raise_pc : (s.raise reason opc).pc = s.pc := rfl
@[simp] theorem raise_fault : (s.raise reason opc).fault = some { reason := reason, pc := s.pc, opc := opc } := rfl
@[simp] theorem raise_io : (s.raise reason opc).io = s.io := rfl
@[simp] theorem raise_prog : (s.raise reason opc).prog = s.prog := rfl
@[simp] theorem raise_policy : (s.raise reason opc).policy = s.policy := rfl
@[simp] theorem raise_input : (s.raise reason opc).input = s.input := rfl

@[simp] theorem outWrite_regs : (s.outWrite v).regs = s.regs := rfl
@[simp] theorem outWrite_pc : (s.outWrite v).pc = s.pc := rfl
@[simp] theorem outWrite_fault : (s.outWrite v).fault = s.fault := rfl
@[simp] theorem outWrite_io : (s.outWrite v).io = s.io ++ [.out v] := rfl
@[simp] theorem outWrite_prog : (s.outWrite v).prog = s.prog := rfl
@[simp] theorem outWrite_policy : (s.outWrite v).policy = s.policy := rfl
@[simp] theorem outWrite_input : (s.outWrite v).input = s.input := rfl

@[simp] theorem deliver_regs : (s.deliver e).regs = s.regs := rfl
@[simp] theorem deliver_pc : (s.deliver e).pc = s.pc := rfl
@[simp] theorem deliver_fault : (s.deliver e).fault = s.fault := rfl
@[simp] theorem deliver_io : (s.deliver e).io = s.io := rfl
@[simp] theorem deliver_prog : (s.deliver e).prog = s.prog := rfl
@[simp] theorem deliver_policy : (s.deliver e).policy = s.policy := rfl
@[simp] theorem deliver_input : (s.deliver e).input = s.input ++ [e] := rfl

end

section
variable (bytes : List Byte) (p : IoBit3Policy)

@[simp] theorem boot_regs : (State.boot bytes p).regs = Regs.reset := rfl
@[simp] theorem boot_pc : (State.boot bytes p).pc = 0 := rfl
@[simp] theorem boot_fault : (State.boot bytes p).fault = none := rfl
@[simp] theorem boot_io : (State.boot bytes p).io = [] := rfl
@[simp] theorem boot_prog : (State.boot bytes p).prog = Memory.ofBytes bytes := rfl
@[simp] theorem boot_policy : (State.boot bytes p).policy = p := rfl
@[simp] theorem boot_input : (State.boot bytes p).input = [] := rfl

end

section
variable (s : State) (nbits w : Nat)

@[simp] theorem withFetchWord_regs : (s.withFetchWord nbits w).regs = s.regs := rfl
@[simp] theorem withFetchWord_pc : (s.withFetchWord nbits w).pc = s.pc := rfl
@[simp] theorem withFetchWord_fault : (s.withFetchWord nbits w).fault = none := rfl
@[simp] theorem withFetchWord_io : (s.withFetchWord nbits w).io = s.io := rfl
@[simp] theorem withFetchWord_prog :
    (s.withFetchWord nbits w).prog = Memory.ofBytes (placeAt s.pc (tableByte nbits w) s.prog.bytes) := rfl
@[simp] theorem withFetchWord_policy : (s.withFetchWord nbits w).policy = s.policy := rfl
@[simp] theorem withFetchWord_input : (s.withFetchWord nbits w).input = s.input := rfl

end

end Sys2Proof.Machine
end

