-- ==== Sys2Proof/Laws/Alu.lean ====
section
/-! SUPPORT. The ALU and the clamp of IN, pushed down to bit-vector and natural-number arithmetic. -/

namespace Sys2Proof.Machine

@[simp] theorem mod256_nat (n : Nat) : mod256 (n : Int) = BitVec.ofNat 8 n := by
  apply BitVec.eq_of_toNat_eq
  simp only [mod256, BitVec.toNat_ofNat]
  omega

/-- ADD wraps as bit vectors do. -/
theorem aluY_add (a b : Byte) : aluY .add a b = some (a + b) := by
  have h : ((a.toNat : Int) + (b.toNat : Int)) = ((a.toNat + b.toNat : Nat) : Int) := by push_cast; rfl
  simp only [aluY, h, mod256_nat, Option.some.injEq]
  apply BitVec.eq_of_toNat_eq
  simp [BitVec.toNat_add]

/-- SUB wraps as bit vectors do. -/
theorem aluY_sub (a b : Byte) : aluY .sub a b = some (a - b) := by
  simp only [aluY, Option.some.injEq]
  apply BitVec.eq_of_toNat_eq
  have ha := a.isLt
  have hb := b.isLt
  simp only [mod256, BitVec.toNat_ofNat, BitVec.toNat_sub]
  omega

/-- MUL keeps the low byte as bit vectors do. -/
theorem aluY_mul (a b : Byte) : aluY .mul a b = some (a * b) := by
  have h : ((a.toNat : Int) * (b.toNat : Int)) = ((a.toNat * b.toNat : Nat) : Int) := by push_cast; rfl
  simp only [aluY, h, mod256_nat, Option.some.injEq]
  apply BitVec.eq_of_toNat_eq
  simp [BitVec.toNat_mul]

@[simp] theorem aluDz_div (b : Byte) : aluDz .div b = true ↔ b = 0#8 := by
  simp [aluDz]

/-- DIV by 0 has no value. -/
theorem aluY_div_zero (a : Byte) : aluY .div a 0#8 = none := by
  simp [aluY]

/-- DIV by anything else is the unsigned quotient. -/
theorem aluY_div (a b : Byte) (hb : b ≠ 0#8) : aluY .div a b = some (a / b) := by
  have h : aluDz .div b = false := by simpa [aluDz] using hb
  simp only [aluY, h, Bool.false_eq_true, if_false, Option.some.injEq]
  apply BitVec.eq_of_toNat_eq
  have := Nat.div_le_self a.toNat b.toNat
  have := a.isLt
  simp only [BitVec.toNat_ofNat, BitVec.toNat_udiv]
  exact Nat.mod_eq_of_lt (by omega)

/-- The ALU has no value exactly when `dz` is 1. -/
theorem aluY_eq_none (op : AluOp) (a b : Byte) : aluY op a b = none ↔ aluDz op b = true := by
  cases op <;> simp [aluY, aluDz]

/-- `dz` is 1 exactly at DIV by 0. -/
theorem aluDz_eq_true (op : AluOp) (b : Byte) : aluDz op b = true ↔ op = .div ∧ b = 0#8 := by
  cases op <;> simp [aluDz]

/-- The clamp keeps 0..127. -/
theorem clampInput_in (n : Int) (h0 : 0 ≤ n) (h1 : n ≤ 127) : (clampInput (some n)).toNat = n.toNat := by
  have h : n.toNat < 256 := by omega
  simp [clampInput, h0, h1, Nat.mod_eq_of_lt h]

/-- The clamp sends everything else to 0. -/
theorem clampInput_out (n : Int) (h : ¬ (0 ≤ n ∧ n ≤ 127)) : clampInput (some n) = 0#8 := by
  simp only [clampInput, h, if_false]

end Sys2Proof.Machine
end

