-- ==== Sys2Proof/Laws/Codec.lean ====
section
/-! SUPPORT. The codec: register codes, the fields as bit ranges, and the decoding of encoded bytes. -/

namespace Sys2Proof

@[simp] theorem Reg.ofCode_code (r : Reg) : Reg.ofCode r.code = r := by cases r <;> rfl

@[simp] theorem Reg.code_ofCode (v : BitVec 2) : (Reg.ofCode v).code = v := by
  revert v; decide

@[simp] theorem Reg.ofLetter_letter (r : Reg) : Reg.ofLetter r.letter = some r := by cases r <;> rfl

/-- A letter outside a..d names no register. -/
theorem Reg.ofLetter_eq_none {ch : Char} (h : ∀ r : Reg, ch ≠ r.letter) : Reg.ofLetter ch = none := by
  have ha := h .a
  have hb := h .b
  have hc := h .c
  have hd := h .d
  simp only [Reg.letter] at ha hb hc hd
  simp [Reg.ofLetter, ha, hb, hc, hd]

theorem layoutField_eq (b : Byte) : layoutField b = b.extractLsb' 7 1 := by revert b; decide
theorem imm7Field_eq (b : Byte) : imm7Field b = b.extractLsb' 0 7 := by revert b; decide
theorem opcField_eq (b : Byte) : opcField b = b.extractLsb' 4 3 := by revert b; decide
theorem r1Field_eq (b : Byte) : r1Field b = b.extractLsb' 2 2 := by revert b; decide
theorem r2Field_eq (b : Byte) : r2Field b = b.extractLsb' 0 2 := by revert b; decide
theorem rsvdField_eq (b : Byte) : rsvdField b = b.extractLsb' 3 1 := by revert b; decide
theorem dirField_eq (b : Byte) : dirField b = b.extractLsb' 2 1 := by revert b; decide
theorem trField_eq (b : Byte) : trField b = b.extractLsb' 0 2 := by revert b; decide

theorem decode_moviByte (p : IoBit3Policy) (v : BitVec 7) : decode p (moviByte v) = .instr (.movi v) := by
  revert v; cases p <;> decide

theorem decode_addByte (p : IoBit3Policy) (r1 r2 : Reg) : decode p (arithByte .add r1 r2) = .instr (.add r1 r2) := by
  cases p <;> cases r1 <;> cases r2 <;> decide

theorem decode_subByte (p : IoBit3Policy) (r1 r2 : Reg) : decode p (arithByte .sub r1 r2) = .instr (.sub r1 r2) := by
  cases p <;> cases r1 <;> cases r2 <;> decide

theorem decode_mulByte (p : IoBit3Policy) (r1 r2 : Reg) : decode p (arithByte .mul r1 r2) = .instr (.mul r1 r2) := by
  cases p <;> cases r1 <;> cases r2 <;> decide

theorem decode_divByte (p : IoBit3Policy) (r1 r2 : Reg) : decode p (arithByte .div r1 r2) = .instr (.div r1 r2) := by
  cases p <;> cases r1 <;> cases r2 <;> decide

theorem decode_inByte (p : IoBit3Policy) (r : Reg) : decode p (ioByte .input r) = .instr (.inp r) := by
  cases p <;> cases r <;> decide

theorem decode_outByte (p : IoBit3Policy) (r : Reg) : decode p (ioByte .output r) = .instr (.out r) := by
  cases p <;> cases r <;> decide

end Sys2Proof
end

