-- ==== Sys2Proof/Laws/Memory.lean ====
section
/-! SUPPORT. The program space: every operation keeps the canonical form, and what a read gives. -/

namespace Sys2Proof.Machine

theorem Memory.ofBytesFrom_wf (bs : List Byte) (k : Nat) :
    Memory.wfFrom k (Memory.ofBytesFrom k bs) = true := by
  induction bs generalizing k with
  | nil => rfl
  | cons b bs ih => simp [Memory.ofBytesFrom, Memory.wfFrom, ih]

/-- Placing a byte sequence gives the canonical form. -/
theorem Memory.ofBytes_wf (bs : List Byte) : (Memory.ofBytes bs).wf = true :=
  Memory.ofBytesFrom_wf bs 0

theorem Memory.reset_wf : State.reset.prog.wf = true := rfl

/-- The host's placement of one instruction keeps the canonical form. -/
theorem Memory.withFetchWord_wf (s : State) (nbits w : Nat) : (s.withFetchWord nbits w).prog.wf = true :=
  Memory.ofBytes_wf _

theorem Memory.size_ofBytesFrom (bs : List Byte) (k : Nat) :
    (Memory.ofBytesFrom k bs).size = bs.length := by
  induction bs generalizing k with
  | nil => rfl
  | cons b bs ih => simpa [Memory.ofBytesFrom, Memory.size] using ih (k + 1)

@[simp] theorem Memory.size_ofBytes (bs : List Byte) : (Memory.ofBytes bs).size = bs.length :=
  Memory.size_ofBytesFrom bs 0

theorem Memory.bytes_ofBytesFrom (bs : List Byte) (k : Nat) :
    (Memory.ofBytesFrom k bs).bytes = bs := by
  induction bs generalizing k with
  | nil => rfl
  | cons b bs ih => simpa [Memory.ofBytesFrom, Memory.bytes] using ih (k + 1)

@[simp] theorem Memory.bytes_ofBytes (bs : List Byte) : (Memory.ofBytes bs).bytes = bs :=
  Memory.bytes_ofBytesFrom bs 0

theorem Memory.ofBytesFrom_bytes {m : Memory} {k : Nat} (h : Memory.wfFrom k m = true) :
    Memory.ofBytesFrom k m.bytes = m := by
  induction m generalizing k with
  | nil => rfl
  | cons c m ih =>
    obtain ⟨a, b⟩ := c
    simp only [Memory.wfFrom, Bool.and_eq_true, beq_iff_eq] at h
    obtain ⟨rfl, h⟩ := h
    exact congrArg ((a, b) :: ·) (ih h)

/-- The canonical form is the form of a placed byte sequence: equal sequences are equal memories. -/
theorem Memory.ofBytes_bytes {m : Memory} (h : m.wf = true) : Memory.ofBytes m.bytes = m :=
  Memory.ofBytesFrom_bytes h

theorem Memory.read_ofBytesFrom (bs : List Byte) (k j : Nat) :
    (Memory.ofBytesFrom k bs).read j = if k ≤ j then bs[j - k]? else none := by
  induction bs generalizing k with
  | nil => simp [Memory.ofBytesFrom, Memory.read]
  | cons b bs ih =>
    simp only [Memory.ofBytesFrom, Memory.read, ih]
    by_cases hk : k = j
    · simp [hk]
    · by_cases hlt : k ≤ j
      · have h1 : k + 1 ≤ j := by omega
        have h2 : j - k = (j - (k + 1)) + 1 := by omega
        simp only [hk, h1, hlt, if_true, if_false]
        rw [h2, List.getElem?_cons_succ]
      · have h1 : ¬ k + 1 ≤ j := by omega
        simp [hk, h1, hlt]

/-- What a read of a placed byte sequence gives. -/
@[simp] theorem Memory.read_ofBytes (bs : List Byte) (j : Nat) : (Memory.ofBytes bs).read j = bs[j]? := by
  simp [Memory.ofBytes, Memory.read_ofBytesFrom]

/-- What a read of a canonical program space gives. -/
theorem Memory.read_eq_bytes {m : Memory} (h : m.wf = true) (j : Nat) : m.read j = m.bytes[j]? := by
  rw [← Memory.read_ofBytes, Memory.ofBytes_bytes h]

@[simp] theorem Memory.length_bytes (m : Memory) : m.bytes.length = m.size := by
  simp [Memory.bytes, Memory.size]

/-- Below L there is a byte. -/
theorem Memory.read_of_lt {m : Memory} (h : m.wf = true) {j : Nat} (hj : j < m.size) :
    ∃ b, m.read j = some b := by
  rw [Memory.read_eq_bytes h]
  exact ⟨m.bytes[j]'(by simpa using hj), List.getElem?_eq_getElem _⟩

/-- At L and past it there is none. -/
theorem Memory.read_of_ge {m : Memory} (h : m.wf = true) {j : Nat} (hj : m.size ≤ j) : m.read j = none := by
  rw [Memory.read_eq_bytes h, List.getElem?_eq_none_iff]
  simpa using hj

theorem Memory.addresses_rise_from {m : Memory} {k : Nat} (h : Memory.wfFrom k m = true) :
    (∀ c ∈ m, k ≤ c.1) ∧ m.Pairwise (fun c d => c.1 < d.1) := by
  induction m generalizing k with
  | nil => simp
  | cons c m ih =>
    obtain ⟨a, b⟩ := c
    simp only [Memory.wfFrom, Bool.and_eq_true, beq_iff_eq] at h
    obtain ⟨rfl, h⟩ := h
    obtain ⟨hle, hp⟩ := ih h
    refine ⟨?_, List.pairwise_cons.mpr ⟨fun d hd => hle d hd, hp⟩⟩
    intro c hc
    rcases List.mem_cons.mp hc with rfl | hc
    · exact le_rfl
    · exact Nat.le_of_succ_le (hle c hc)

/-- The canonical form lists indices in strictly rising order. -/
theorem Memory.addresses_rise {m : Memory} (h : m.wf = true) : m.Pairwise (fun c d => c.1 < d.1) :=
  (Memory.addresses_rise_from h).2

/-- What the host's placement puts at the index. -/
@[simp] theorem placeAt_getElem? (k : Nat) (b : Byte) (bs : List Byte) : (placeAt k b bs)[k]? = some b := by
  induction k generalizing bs with
  | zero => cases bs <;> simp [placeAt]
  | succ k ih => cases bs <;> simp [placeAt, ih]

/-- The placement leaves every other byte of the sequence as it was. -/
theorem placeAt_getElem?_ne (k j : Nat) (b : Byte) (bs : List Byte) (hj : j < bs.length) (hne : j ≠ k) :
    (placeAt k b bs)[j]? = bs[j]? := by
  induction k generalizing bs j with
  | zero =>
    cases bs with
    | nil => simp at hj
    | cons x bs => cases j with
      | zero => exact absurd rfl hne
      | succ j => simp [placeAt]
  | succ k ih =>
    cases bs with
    | nil => simp at hj
    | cons x bs => cases j with
      | zero => simp [placeAt]
      | succ j => simpa [placeAt] using ih j bs (by simpa using hj) (by omega)

theorem lt_length_placeAt (k : Nat) (b : Byte) (bs : List Byte) : k < (placeAt k b bs).length := by
  induction k generalizing bs with
  | zero => cases bs <;> simp [placeAt]
  | succ k ih => cases bs <;> simpa [placeAt] using ih _

end Sys2Proof.Machine
end

