-- ==== Sys2Proof/Laws/Ops.lean ====
section
/-! SUPPORT. What the shared operations do, said once: register access, the status, the channels, and the inversion of
`exec` and `step` that every invariant is derived from. -/

namespace Sys2Proof.Machine

/-! ### Registers -/

@[simp] theorem Regs.get_set_self (x : Regs) (r : Reg) (v : Byte) : (x.set r v).get r = v := by
  cases r <;> rfl

theorem Regs.get_set_ne (x : Regs) {r q : Reg} (v : Byte) (h : q ≠ r) : (x.set r v).get q = x.get q := by
  cases r <;> cases q <;> first | rfl | exact absurd rfl h

/-- Two register files with equal contents are equal. -/
theorem Regs.ext_get {x y : Regs} (h : ∀ r, x.get r = y.get r) : x = y := by
  obtain ⟨xa, xb, xc, xd⟩ := x
  obtain ⟨ya, yb, yc, yd⟩ := y
  have ha := h .a
  have hb := h .b
  have hc := h .c
  have hd := h .d
  simp only [Regs.get] at ha hb hc hd
  simp [ha, hb, hc, hd]

@[simp] theorem getReg_setReg_self (s : State) (r : Reg) (v : Byte) : (s.setReg r v).getReg r = v :=
  Regs.get_set_self s.regs r v

theorem getReg_setReg_ne (s : State) {r q : Reg} (v : Byte) (h : q ≠ r) :
    (s.setReg r v).getReg q = s.getReg q :=
  Regs.get_set_ne s.regs v h

@[simp] theorem getReg_advance (s : State) (r : Reg) : s.advance.getReg r = s.getReg r := rfl
@[simp] theorem getReg_raise (s : State) (f : FaultReason) (o : Option (BitVec 3)) (r : Reg) :
    (s.raise f o).getReg r = s.getReg r := rfl
@[simp] theorem getReg_outWrite (s : State) (v : Byte) (r : Reg) : (s.outWrite v).getReg r = s.getReg r := rfl
@[simp] theorem getReg_deliver (s : State) (e : InEvent) (r : Reg) : (s.deliver e).getReg r = s.getReg r := rfl

/-! ### Status -/

theorem status_running_iff (s : State) : s.status = .running ↔ s.fault = none ∧ s.pc ≠ s.progLen := by
  simp only [State.status]
  split <;> rename_i h
  · simp [h]
  · split <;> simp_all

theorem status_halted_iff (s : State) : s.status = .halted ↔ s.fault = none ∧ s.pc = s.progLen := by
  simp only [State.status]
  split <;> rename_i h
  · simp [h]
  · split <;> simp_all

theorem status_faulted_iff (s : State) (r : FaultReason) :
    s.status = .faulted r ↔ ∃ f, s.fault = some f ∧ f.reason = r := by
  simp only [State.status]
  split <;> rename_i h
  · simp [h]
  · split <;> simp_all

/-! ### The input channel -/

theorem inRead_nil {s : State} (h : s.input = []) : s.inRead = none := by
  simp [State.inRead, h]

theorem inRead_cons {s : State} {e : InEvent} {rest : List InEvent} (h : s.input = e :: rest) :
    s.inRead = some (e, { s with input := rest, io := s.io ++ [.inp e] }) := by
  simp [State.inRead, h]

/-- IN consumes an event: the state after the consumption, before the rest of the instruction. -/
def consume (s : State) (e : InEvent) (rest : List InEvent) : State :=
  { s with input := rest, io := s.io ++ [.inp e] }

section
variable (s : State) (e : InEvent) (rest : List InEvent)

@[simp] theorem consume_regs : (consume s e rest).regs = s.regs := rfl
@[simp] theorem consume_pc : (consume s e rest).pc = s.pc := rfl
@[simp] theorem consume_fault : (consume s e rest).fault = s.fault := rfl
@[simp] theorem consume_io : (consume s e rest).io = s.io ++ [.inp e] := rfl
@[simp] theorem consume_prog : (consume s e rest).prog = s.prog := rfl
@[simp] theorem consume_policy : (consume s e rest).policy = s.policy := rfl
@[simp] theorem consume_input : (consume s e rest).input = rest := rfl
@[simp] theorem getReg_consume (r : Reg) : (consume s e rest).getReg r = s.getReg r := rfl

end

/-! ### What the shared operations answer -/

/-- Everything an arithmetic instruction can do. -/
theorem aluInstr_cases (op : AluOp) (r1 r2 : Reg) (s : State) :
    (∃ y, aluY op (s.getReg r1) (s.getReg r2) = some y ∧ aluInstr op r1 r2 s = .next ((s.setReg r1 y).advance)) ∨
    (op = .div ∧ s.getReg r2 = 0#8 ∧ aluInstr op r1 r2 s = .next (s.raise .divisionByZero none)) := by
  rcases h : aluY op (s.getReg r1) (s.getReg r2) with _ | y
  · right
    obtain ⟨h1, h2⟩ := (aluDz_eq_true op _).mp ((aluY_eq_none op _ _).mp h)
    exact ⟨h1, h2, by simp [aluInstr, h]⟩
  · exact .inl ⟨y, rfl, by simp [aluInstr, h]⟩

/-- Everything IN can do. -/
theorem execInp_cases (tr : Reg) (s : State) :
    (s.input = [] ∧ execInp tr s = .next s) ∨
    (∃ rest, s.input = .endOfStream :: rest ∧
      execInp tr s = .next ((consume s .endOfStream rest).raise .inputStream none)) ∨
    (∃ t rest, s.input = .line t :: rest ∧
      execInp tr s = .next (((consume s (.line t) rest).setReg tr (inValue t)).advance)) := by
  rcases h : s.input with _ | ⟨e, rest⟩
  · exact .inl ⟨rfl, by simp [execInp, inRead_nil h]⟩
  · cases e with
    | endOfStream => exact .inr (.inl ⟨rest, rfl, by simp [execInp, inRead_cons h, consume]⟩)
    | line t => exact .inr (.inr ⟨t, rest, rfl, by simp [execInp, inRead_cons h, consume]⟩)

/-- The ways an instruction ends. -/
inductive Effect (s : State) : State → Prop where
  /-- A register is written and the pc advances. -/
  | wrote (r : Reg) (v : Byte) : Effect s ((s.setReg r v).advance)
  /-- A value is emitted and the pc advances. -/
  | emitted (v : Byte) : Effect s ((s.outWrite v).advance)
  /-- A line is consumed, a register is written and the pc advances. -/
  | received (r : Reg) (v : Byte) (t : Text) (rest : List InEvent) (h : s.input = .line t :: rest) :
      Effect s (((consume s (.line t) rest).setReg r v).advance)
  /-- IN waits. -/
  | held (h : s.input = []) : Effect s s
  /-- DivisionByZeroFault or UnknownOpcodeFault is taken. -/
  | raised (reason : FaultReason) (opc : Option (BitVec 3)) (h : reason ≠ .inputStream) : Effect s (s.raise reason opc)
  /-- The end of the stream is consumed and InputStreamFault is taken. -/
  | streamEnded (rest : List InEvent) (h : s.input = .endOfStream :: rest) :
      Effect s ((consume s .endOfStream rest).raise .inputStream none)

theorem aluInstr_effect (op : AluOp) (r1 r2 : Reg) (s : State) : ∃ t, aluInstr op r1 r2 s = .next t ∧ Effect s t := by
  rcases aluInstr_cases op r1 r2 s with ⟨y, _, h⟩ | ⟨_, _, h⟩
  · exact ⟨_, h, .wrote r1 y⟩
  · exact ⟨_, h, .raised _ _ (by decide)⟩

theorem execInp_effect (tr : Reg) (s : State) : ∃ t, execInp tr s = .next t ∧ Effect s t := by
  rcases execInp_cases tr s with ⟨h0, h⟩ | ⟨rest, h0, h⟩ | ⟨t, rest, h0, h⟩
  · exact ⟨_, h, .held h0⟩
  · exact ⟨_, h, .streamEnded rest h0⟩
  · exact ⟨_, h, .received tr _ t rest h0⟩

/-- Every instruction answers a next state, in one of the ways of `Effect`. -/
theorem exec_effect (i : Instr) (s : State) : ∃ t, exec i s = .next t ∧ Effect s t := by
  cases i with
  | movi imm7 => exact ⟨_, rfl, .wrote _ _⟩
  | add r1 r2 => exact aluInstr_effect .add r1 r2 s
  | sub r1 r2 => exact aluInstr_effect .sub r1 r2 s
  | mul r1 r2 => exact aluInstr_effect .mul r1 r2 s
  | div r1 r2 => exact aluInstr_effect .div r1 r2 s
  | inp tr => exact execInp_effect tr s
  | out tr => exact ⟨_, rfl, .emitted _⟩
  | reserved5 => exact ⟨_, rfl, .raised _ _ (by decide)⟩
  | reserved6 => exact ⟨_, rfl, .raised _ _ (by decide)⟩
  | reserved7 => exact ⟨_, rfl, .raised _ _ (by decide)⟩

/-- A decoded byte, run. -/
def runDecoded (d : Decoded) (s : State) : Host.Outcome State Fault Refusal :=
  match d with
  | .instr i => exec i s
  | .unknown4 => execUnknown4 s

theorem runDecoded_effect (d : Decoded) (s : State) : ∃ t, runDecoded d s = .next t ∧ Effect s t := by
  cases d with
  | instr i => exact exec_effect i s
  | unknown4 => exact ⟨_, rfl, .raised _ _ (by decide)⟩

/-- A running step runs the decoded byte. -/
theorem step_of_fetch {s : State} {b : Byte} (hr : s.status = .running) (hb : s.fetch = some b) :
    step s = runDecoded (decode s.policy b) s := by
  simp only [step, hr, hb]
  cases decode s.policy b <;> rfl

/-- Everything a step that answers a next state can do. -/
theorem step_next_cases {s t : State} (h : step s = .next t) :
    s.fault = none ∧ s.pc ≠ s.progLen ∧
      ∃ b, s.fetch = some b ∧ runDecoded (decode s.policy b) s = .next t ∧ Effect s t := by
  cases hst : s.status with
  | halted => simp [step, hst] at h
  | faulted r => simp [step, hst] at h
  | running =>
    obtain ⟨hf, hp⟩ := (status_running_iff s).mp hst
    cases hb : s.fetch with
    | none => simp [step, hst, hb] at h
    | some b =>
      obtain ⟨u, hu, he⟩ := runDecoded_effect (decode s.policy b) s
      rw [step_of_fetch hst hb, hu] at h
      cases h
      exact ⟨hf, hp, b, rfl, hu, he⟩

/-- The program space and the policy stay as they are. -/
theorem Effect.prog_policy {s t : State} (h : Effect s t) : t.prog = s.prog ∧ t.policy = s.policy := by
  cases h <;> exact ⟨rfl, rfl⟩

/-- The pc stays or moves on by one. -/
theorem Effect.pc {s t : State} (h : Effect s t) : t.pc = s.pc ∨ t.pc = s.pc + 1 := by
  cases h <;> simp

end Sys2Proof.Machine
end

