-- ==== Sys2Proof/Laws/PerInstr.lean ====
section
/-! SUPPORT. Statements for all instructions, one lemma for each constructor of Instr. -/

namespace Sys2Proof.Laws.EncodedLayout

/-- The layout bit of an encoded instruction (30_encoding.md R61): bit 7 is 0 for a MOVI and 1 for every other. -/
def Statement (i : Instr) : Prop :=
  ∀ b, encode i = some b → (b.getLsbD 7 = false ↔ ∃ imm7, i = .movi imm7)

theorem movi (imm7 : BitVec 7) : Statement (.movi imm7) := by
  intro b h
  cases h
  have bit : (moviByte imm7).getLsbD 7 = false := by revert imm7; decide
  exact ⟨fun _ => ⟨imm7, rfl⟩, fun _ => bit⟩

theorem arith_bit7 (op : AluOp) (r1 r2 : Reg) : (arithByte op r1 r2).getLsbD 7 = true := by
  cases op <;> cases r1 <;> cases r2 <;> decide

theorem io_bit7 (dir : Dir) (r : Reg) : (ioByte dir r).getLsbD 7 = true := by
  cases dir <;> cases r <;> decide

/-- An instruction that is no MOVI, with bit 7 set. -/
theorem layoutB {i : Instr} {b : Byte} (bit : b.getLsbD 7 = true) (hi : ∀ imm7, i ≠ .movi imm7) :
    b.getLsbD 7 = false ↔ ∃ imm7, i = .movi imm7 :=
  ⟨fun hb => absurd (bit.symm.trans hb) Bool.noConfusion, fun ⟨v, he⟩ => absurd he (hi v)⟩

theorem add (r1 r2 : Reg) : Statement (.add r1 r2) := by
  intro b h; cases h; exact layoutB (arith_bit7 ..) (fun _ he => by cases he)

theorem sub (r1 r2 : Reg) : Statement (.sub r1 r2) := by
  intro b h; cases h; exact layoutB (arith_bit7 ..) (fun _ he => by cases he)

theorem mul (r1 r2 : Reg) : Statement (.mul r1 r2) := by
  intro b h; cases h; exact layoutB (arith_bit7 ..) (fun _ he => by cases he)

theorem div (r1 r2 : Reg) : Statement (.div r1 r2) := by
  intro b h; cases h; exact layoutB (arith_bit7 ..) (fun _ he => by cases he)

theorem inp (tr : Reg) : Statement (.inp tr) := by
  intro b h; cases h; exact layoutB (io_bit7 ..) (fun _ he => by cases he)

theorem out (tr : Reg) : Statement (.out tr) := by
  intro b h; cases h; exact layoutB (io_bit7 ..) (fun _ he => by cases he)

theorem reserved5 : Statement .reserved5 := by
  intro b h; simp [encode] at h

theorem reserved6 : Statement .reserved6 := by
  intro b h; simp [encode] at h

theorem reserved7 : Statement .reserved7 := by
  intro b h; simp [encode] at h

end Sys2Proof.Laws.EncodedLayout
end

