-- ==== Sys2Proof/Laws/Run.lean ====
section
/-! SUPPORT. What a running step's outcome says about the decoded byte, when a machine waits, the INs that a run has
left, and the induction over runs. -/

namespace Sys2Proof.Machine

/-- When the machine waits for the host. -/
theorem waiting_iff (s : State) :
    s.waiting = true ↔
      s.status = .running ∧ s.input = [] ∧ ∃ b tr, s.fetch = some b ∧ decode s.policy b = .instr (.inp tr) := by
  simp only [State.waiting]
  split
  · rename_i byte hstatus hfetch hinput
    rw [hstatus, hfetch, hinput]
    split
    · rename_i tr hd
      simp [hd]
    · rename_i hd
      simp only [Bool.false_eq_true, Option.some.injEq, exists_and_left, exists_eq_left', true_and, false_iff, not_exists]
      exact hd
  · rename_i h
    simp only [Bool.false_eq_true, false_iff, not_and, not_exists]
    intro hstatus hinput byte tr hfetch
    exact absurd hinput (h byte hstatus hfetch)

/-- One turn of the wait. -/
theorem step_of_waiting {s : State} (h : s.waiting = true) : step s = .next s := by
  obtain ⟨hr, hin, b, tr, hb, hd⟩ := (waiting_iff s).mp h
  rw [step_of_fetch hr hb, hd]
  simp [runDecoded, exec, execInp, inRead_nil hin]

/-- What an arithmetic instruction does to the fault record. -/
theorem aluInstr_fault {s t : State} {op : AluOp} {r1 r2 : Reg} (h : aluInstr op r1 r2 s = .next t) :
    (t.fault = s.fault ∧ (op = .div → s.getReg r2 ≠ 0#8)) ∨
      (t = s.raise .divisionByZero none ∧ op = .div ∧ s.getReg r2 = 0#8) := by
  rcases aluInstr_cases op r1 r2 s with ⟨y, hy, h'⟩ | ⟨hop, hz, h'⟩
  · rw [h'] at h
    cases h
    refine .inl ⟨rfl, ?_⟩
    rintro rfl hz
    rw [hz, aluY_div_zero] at hy
    cases hy
  · rw [h'] at h
    cases h
    exact .inr ⟨rfl, hop, hz⟩

/-- The outcomes of a decoded byte by the fault they take: none, and then no cause of one was there, or exactly one with its
cause. -/
theorem runDecoded_fault {s t : State} {v : Decoded} (h : runDecoded v s = .next t) :
    (t.fault = s.fault ∧ (∀ r1 r2, v = .instr (.div r1 r2) → s.getReg r2 ≠ 0#8) ∧ unknownOpcodeOf v = none ∧
      ∀ tr rest, v = .instr (.inp tr) → s.input ≠ .endOfStream :: rest) ∨
    (t = s.raise .divisionByZero none ∧ ∃ r1 r2, v = .instr (.div r1 r2) ∧ s.getReg r2 = 0#8) ∨
    (∃ k, t = s.raise .unknownOpcode (some k) ∧ unknownOpcodeOf v = some k) ∨
    (∃ rest tr, t = (consume s .endOfStream rest).raise .inputStream none ∧ v = .instr (.inp tr) ∧
      s.input = .endOfStream :: rest) := by
  cases v with
  | unknown4 => cases h; exact .inr (.inr (.inl ⟨_, rfl, rfl⟩))
  | instr i =>
    cases i with
    | movi imm7 => cases h; left; simp [unknownOpcodeOf]
    | out tr => cases h; left; simp [unknownOpcodeOf]
    | reserved5 => cases h; exact .inr (.inr (.inl ⟨_, rfl, rfl⟩))
    | reserved6 => cases h; exact .inr (.inr (.inl ⟨_, rfl, rfl⟩))
    | reserved7 => cases h; exact .inr (.inr (.inl ⟨_, rfl, rfl⟩))
    | inp tr =>
      change execInp tr s = _ at h
      rcases execInp_cases tr s with ⟨hin, h'⟩ | ⟨rest, hin, h'⟩ | ⟨line, rest, hin, h'⟩ <;> rw [h'] at h <;> cases h
      · left; simp [unknownOpcodeOf, hin]
      · exact .inr (.inr (.inr ⟨rest, tr, rfl, rfl, hin⟩))
      · left; simp [unknownOpcodeOf, hin]
    | add r1 r2 =>
      rcases aluInstr_fault (op := .add) h with ⟨hf, _⟩ | ⟨_, hop, _⟩
      · left; simp [unknownOpcodeOf, hf]
      · cases hop
    | sub r1 r2 =>
      rcases aluInstr_fault (op := .sub) h with ⟨hf, _⟩ | ⟨_, hop, _⟩
      · left; simp [unknownOpcodeOf, hf]
      · cases hop
    | mul r1 r2 =>
      rcases aluInstr_fault (op := .mul) h with ⟨hf, _⟩ | ⟨_, hop, _⟩
      · left; simp [unknownOpcodeOf, hf]
      · cases hop
    | div r1 r2 =>
      rcases aluInstr_fault (op := .div) h with ⟨hf, hz⟩ | ⟨ht, _, hz⟩
      · left
        refine ⟨hf, ?_, rfl, by simp⟩
        rintro q1 q2 hq
        cases hq
        exact hz rfl
      · exact .inr (.inl ⟨ht, r1, r2, rfl, hz⟩)

/-- Only IN touches the pending events. -/
theorem runDecoded_input {s t : State} {v : Decoded} (h : runDecoded v s = .next t) (hin : ¬ isInput v = true) :
    t.input = s.input := by
  have alu {op : AluOp} {r1 r2 : Reg} (h : aluInstr op r1 r2 s = .next t) : t.input = s.input := by
    rcases aluInstr_cases op r1 r2 s with ⟨_, _, h'⟩ | ⟨_, _, h'⟩ <;> rw [h'] at h <;> cases h <;> rfl
  cases v with
  | unknown4 => cases h; rfl
  | instr i =>
    cases i with
    | movi imm7 => cases h; rfl
    | add r1 r2 => exact alu (op := .add) h
    | sub r1 r2 => exact alu (op := .sub) h
    | mul r1 r2 => exact alu (op := .mul) h
    | div r1 r2 => exact alu (op := .div) h
    | inp tr => exact absurd rfl hin
    | out tr => cases h; rfl
    | reserved5 => cases h; rfl
    | reserved6 => cases h; rfl
    | reserved7 => cases h; rfl

/-- The IN at the pc, and the ones after it. -/
theorem inputsLeft_succ {s t : State} {b : Byte} (hlt : s.pc < s.progLen) (hb : s.fetch = some b)
    (hprog : t.prog = s.prog) (hpolicy : t.policy = s.policy) (hpc : t.pc = s.pc + 1) :
    s.inputsLeft = t.inputsLeft + if isInput (decode s.policy b) then 1 else 0 := by
  obtain ⟨n, hn⟩ : ∃ n, s.progLen - s.pc = n + 1 := ⟨s.progLen - s.pc - 1, by omega⟩
  have hlen : t.progLen = s.progLen := by simp only [State.progLen, hprog]
  have hread : s.prog.read s.pc = some b := hb
  simp only [State.inputsLeft, hn, hprog, hpolicy, hpc, hlen, show s.progLen - (s.pc + 1) = n by omega,
    List.range'_succ, List.countP_cons, hread, Option.any_some]

/-- A step that ends without a fault and is no turn of the wait leaves at most as many INs over the pending events as before. -/
theorem inputsLeft_le_of_step {s t : State} (h : step s = .next t) (hlt : s.pc < s.progLen) (hpc : t.pc = s.pc + 1)
    (hle : s.inputsLeft ≤ s.input.length) : t.inputsLeft ≤ t.input.length := by
  obtain ⟨_, _, b, hb, hrun, heffect⟩ := step_next_cases h
  obtain ⟨hprog, hpolicy⟩ := heffect.prog_policy
  have hsucc := inputsLeft_succ hlt hb hprog hpolicy hpc
  by_cases hin : isInput (decode s.policy b) = true
  · rw [if_pos hin] at hsucc
    have : s.input.length ≤ t.input.length + 1 := by cases heffect <;> simp [*]
    omega
  · rw [if_neg hin] at hsucc
    have : t.input = s.input := runDecoded_input hrun hin
    rw [this]
    omega

/-- A relation that is reflexive and survives a step in front holds between a state and the end of any run from it. -/
theorem runFor_induct {P : State → State → Prop} (refl : ∀ s, P s s)
    (front : ∀ s t u, step s = .next t → P t u → P s u) : ∀ n s, P s (runFor n s) := by
  intro n
  induction n with
  | zero => exact refl
  | succ n ih =>
    intro s
    simp only [runFor]
    split
    · rename_i t ht
      exact front s t _ ht (ih t)
    · exact refl s
    · exact refl s

end Sys2Proof.Machine
end

