-- ==== Sys2Proof/Laws/Toolchain.lean ====
section
/-! SUPPORT. What the reader of MOVI's literal accepts, said once: exactly the grammar of R83 (D22), with its value. -/

namespace Sys2Proof.Machine

@[simp] theorem digitText_nil : digitText [] = [] := rfl
@[simp] theorem digitText_cons (d : Fin 10) (ds : List (Fin 10)) : digitText (d :: ds) = Nat.digitChar d :: digitText ds := rfl
@[simp] theorem digitValue_nil : digitValue [] = 0 := rfl

theorem digitValue_cons (d : Fin 10) (ds : List (Fin 10)) : digitValue (d :: ds) = d.val * 10 ^ ds.length + digitValue ds := by
  simp [digitValue, Nat.ofDigits_append, Nat.mul_comm, Nat.add_comm]

/-- The characters '0' to '9' are those of the ten digits. -/
theorem digit_char_iff (ch : Char) : ('0' ≤ ch ∧ ch ≤ '9') ↔ ∃ d : Fin 10, ch = Nat.digitChar d := by
  constructor
  · rintro ⟨low, high⟩
    have low' : 48 ≤ ch.toNat := low
    have high' : ch.toNat ≤ 57 := high
    refine ⟨⟨ch.toNat - 48, by omega⟩, (Char.ofNat_toNat ch).symm.trans ?_⟩
    dsimp only
    generalize ch.toNat = n at low' high' ⊢
    interval_cases n <;> rfl
  · rintro ⟨d, rfl⟩
    revert d
    decide

theorem digitChar_toNat (d : Fin 10) : (Nat.digitChar d).toNat - '0'.toNat = d.val := by
  revert d
  decide

/-- Everything `digitsFrom` answers. -/
theorem digitsFrom_eq_some_iff (t : Text) : ∀ acc n,
    digitsFrom acc t = some n ↔ ∃ ds, t = digitText ds ∧ n = acc * 10 ^ ds.length + digitValue ds := by
  induction t with
  | nil =>
    intro acc n
    constructor
    · rintro ⟨⟩
      exact ⟨[], rfl, by simp⟩
    · rintro ⟨ds, text, rfl⟩
      cases ds with
      | nil => simp [digitsFrom]
      | cons d ds => cases text
  | cons ch rest ih =>
    intro acc n
    by_cases isDigit : '0' ≤ ch ∧ ch ≤ '9'
    · obtain ⟨d, rfl⟩ := (digit_char_iff ch).mp isDigit
      have value (ds : List (Fin 10)) :
          (acc * 10 + d.val) * 10 ^ ds.length + digitValue ds = acc * 10 ^ (ds.length + 1) + digitValue (d :: ds) := by
        rw [digitValue_cons]
        ring
      rw [digitsFrom, if_pos isDigit, digitChar_toNat, ih]
      constructor
      · rintro ⟨ds, rfl, rfl⟩
        exact ⟨d :: ds, rfl, value ds⟩
      · rintro ⟨_ | ⟨e, ds⟩, text, rfl⟩
        · cases text
        · obtain ⟨same, rfl⟩ := List.cons.inj text
          have de : d = e := by
            have := congrArg (fun c => c.toNat - '0'.toNat) same
            rw [digitChar_toNat, digitChar_toNat] at this
            exact Fin.ext this
          subst de
          exact ⟨ds, rfl, (value ds).symm⟩
    · rw [digitsFrom, if_neg isDigit]
      constructor
      · rintro ⟨⟩
      · rintro ⟨_ | ⟨e, ds⟩, text, _⟩
        · cases text
        · exact absurd ((digit_char_iff ch).mpr ⟨e, (List.cons.inj text).1⟩) isDigit

/-- Everything `digits` answers. -/
theorem digits_eq_some_iff (t : Text) (n : Nat) :
    digits t = some n ↔ ∃ ds, ds ≠ [] ∧ t = digitText ds ∧ n = digitValue ds := by
  cases t with
  | nil =>
    constructor
    · rintro ⟨⟩
    · rintro ⟨_ | ⟨d, ds⟩, nonempty, text, _⟩
      · exact absurd rfl nonempty
      · cases text
  | cons ch rest =>
    rw [digits, digitsFrom_eq_some_iff]
    constructor
    · rintro ⟨ds, text, rfl⟩
      exact ⟨ds, fun empty => (by subst empty; cases text), text, by simp⟩
    · rintro ⟨ds, _, text, rfl⟩
      exact ⟨ds, text, by simp⟩

/-- A text of digits begins with no sign. -/
theorem digitText_ne_sign (ds : List (Fin 10)) (sign : Char) (rest : Text) (h : ¬ ('0' ≤ sign ∧ sign ≤ '9')) :
    digitText ds ≠ sign :: rest := by
  cases ds with
  | nil => rintro ⟨⟩
  | cons d ds =>
    intro text
    exact h ((digit_char_iff sign).mpr ⟨d, (List.cons.inj text).1.symm⟩)

/-- Everything `parseLiteral` answers. -/
theorem parseLiteral_eq_some_iff (tok : Text) (v : Int) : parseLiteral tok = some v ↔ DecimalLiteral tok v := by
  have plus (ds : List (Fin 10)) (rest : Text) : digitText ds ≠ '+' :: rest := digitText_ne_sign ds '+' rest (by decide)
  have minus (ds : List (Fin 10)) (rest : Text) : digitText ds ≠ '-' :: rest := digitText_ne_sign ds '-' rest (by decide)
  simp only [parseLiteral]
  split
  · simp only [Option.map_eq_some_iff, digits_eq_some_iff, DecimalLiteral]
    constructor
    · rintro ⟨_, ⟨ds, nonempty, rfl, rfl⟩, rfl⟩
      exact ⟨ds, nonempty, .inr (.inl ⟨rfl, rfl⟩)⟩
    · rintro ⟨ds, nonempty, ⟨text, _⟩ | ⟨text, rfl⟩ | ⟨text, _⟩⟩
      · exact absurd text.symm (plus ds _)
      · exact ⟨_, ⟨ds, nonempty, (List.cons.inj text).2, rfl⟩, rfl⟩
      · cases (List.cons.inj text).1
  · simp only [Option.map_eq_some_iff, digits_eq_some_iff, DecimalLiteral]
    constructor
    · rintro ⟨_, ⟨ds, nonempty, rfl, rfl⟩, rfl⟩
      exact ⟨ds, nonempty, .inr (.inr ⟨rfl, rfl⟩)⟩
    · rintro ⟨ds, nonempty, ⟨text, _⟩ | ⟨text, _⟩ | ⟨text, rfl⟩⟩
      · exact absurd text.symm (minus ds _)
      · cases (List.cons.inj text).1
      · exact ⟨_, ⟨ds, nonempty, (List.cons.inj text).2, rfl⟩, rfl⟩
  · rename_i notPlus notMinus
    simp only [Option.map_eq_some_iff, digits_eq_some_iff, DecimalLiteral]
    constructor
    · rintro ⟨_, ⟨ds, nonempty, rfl, rfl⟩, rfl⟩
      exact ⟨ds, nonempty, .inl ⟨rfl, rfl⟩⟩
    · rintro ⟨ds, nonempty, ⟨text, rfl⟩ | ⟨text, _⟩ | ⟨text, _⟩⟩
      · exact ⟨_, ⟨ds, nonempty, text, rfl⟩, rfl⟩
      · exact absurd text (notPlus _)
      · exact absurd text (notMinus _)

end Sys2Proof.Machine
end

