-- ==== Sys2Proof/Tests/Slice0.lean ====
section
/-! SUPPORT. Tests. Expected values are the spec's own (spec/95_test_vectors.md sections 1 to 4, and the encodings of
spec/30_encoding.md written out bit by bit); a witness_ theorem shows that the hypotheses of a statement are met. -/

namespace Sys2Proof.Tests

open Sys2Proof Sys2Proof.Machine

/-- A state at pc 0 with the four registers given and a one-byte program. -/
def at0 (a b c d : Byte) (byte : Byte) (p : IoBit3Policy := .ignore) (events : List InEvent := []) : State :=
  { State.boot [byte] p with regs := { a := a, b := b, c := c, d := d }, input := events }

/-- The state after one step, when there is one. -/
def afterStep (s : State) : Option State :=
  match step s with
  | .next t => some t
  | .fault _ => none
  | .refused _ => none

/-- Registers and pc after one step. -/
def regsAfter (s : State) : Option (Regs × Nat) := (afterStep s).map fun t => (t.regs, t.pc)

/-- Fault record, registers and pc after one step. -/
def faultAfter (s : State) : Option (Option FaultRecord × Regs × Nat) :=
  (afterStep s).map fun t => (t.fault, t.regs, t.pc)

/-! ### WellFormed: the ill-formed terms are refused -/

theorem test_wellFormed_refuses_reserved5 : Instr.reserved5.wellFormed = false := by decide
theorem test_wellFormed_refuses_reserved6 : Instr.reserved6.wellFormed = false := by decide
theorem test_wellFormed_refuses_reserved7 : Instr.reserved7.wellFormed = false := by decide
theorem test_encode_refuses_reserved : [encode .reserved5, encode .reserved6, encode .reserved7] = [none, none, none] := by
  decide

/-! ### Decoding, words written out from the encodings (R63, R65, R66, R71) -/

theorem test_decode_movi : decode .ignore 0b01111111#8 = .instr (.movi 127#7) := by decide
theorem test_decode_add : decode .ignore 0b10001110#8 = .instr (.add .d .c) := by decide
theorem test_decode_sub : decode .ignore 0b10011011#8 = .instr (.sub .c .d) := by decide
theorem test_decode_mul : decode .ignore 0b10100101#8 = .instr (.mul .b .b) := by decide
theorem test_decode_div : decode .ignore 0b10110100#8 = .instr (.div .b .a) := by decide
theorem test_decode_inp : decode .ignore 0b11000001#8 = .instr (.inp .b) := by decide
theorem test_decode_out : decode .ignore 0b11000110#8 = .instr (.out .c) := by decide
theorem test_decode_reserved5 : decode .ignore 0b11010011#8 = .instr .reserved5 := by decide
theorem test_decode_reserved6 : decode .ignore 0b11100101#8 = .instr .reserved6 := by decide
theorem test_decode_reserved7 : decode .ignore 0b11111111#8 = .instr .reserved7 := by decide

/-- Section 2's rows C8-CB and CC-CF, under both policies. -/
theorem test_decode_io_bit3 :
    [decode .ignore 0b11001001#8, decode .ignore 0b11001101#8, decode .unknown 0b11001001#8, decode .unknown 0b11001101#8] =
      [.instr (.inp .b), .instr (.out .b), .unknown4, .unknown4] := by decide

/-- C1 and C2: 0x80 is ADD a,a and 0xC3 is IN d. -/
theorem test_decode_conflict_bytes :
    decode .ignore 0x80#8 = .instr (.add .a .a) ∧ decode .ignore 0xC3#8 = .instr (.inp .d) := by decide

/-- E1: the encoded bytes of MOVI 5, ADD a,b, IN c and OUT d. -/
theorem test_encode_example_E1 :
    [encode (.movi 5#7), encode (.add .a .b), encode (.inp .c), encode (.out .d)] =
      [some 0x05#8, some 0x81#8, some 0xC2#8, some 0xC7#8] := by decide

/-- E6: range errors of the codec. -/
theorem test_encodeMovi_range :
    (match encodeMovi 128, encodeMovi (-1) with
      | .error .rangeError, .error .rangeError => true
      | _, _ => false) = true := by decide

/-- The host's numbering of a row. -/
theorem test_decodeTableWord : decodeTableWord 8 0xC4 = some (.out .a) ∧ decodeTableWord 8 0xFF = some .reserved7 := by decide

/-! ### One step of each instruction (section 3) -/

theorem test_movi_clears_bit7 : regsAfter (at0 255 0 0 0 0x40) = some (⟨64, 0, 0, 0⟩, 1) := by decide
theorem test_movi_keeps_others : regsAfter (at0 200 1 2 3 0x05) = some (⟨5, 1, 2, 3⟩, 1) := by decide
theorem test_add_wraps : regsAfter (at0 200 100 0 0 0x81) = some (⟨44, 100, 0, 0⟩, 1) := by decide
theorem test_add_writes_r1 : regsAfter (at0 0 0 10 20 0x8E) = some (⟨0, 0, 10, 30⟩, 1) := by decide
theorem test_sub_wraps : regsAfter (at0 0 0 30 50 0x9B) = some (⟨0, 0, 236, 50⟩, 1) := by decide
theorem test_sub_same : regsAfter (at0 77 0 0 0 0x90) = some (⟨0, 0, 0, 0⟩, 1) := by decide
theorem test_mul_low_byte : regsAfter (at0 255 255 0 0 0xA1) = some (⟨1, 255, 0, 0⟩, 1) := by decide
theorem test_mul_same : regsAfter (at0 200 0 0 0 0xA0) = some (⟨64, 0, 0, 0⟩, 1) := by decide
theorem test_div_quotient : regsAfter (at0 200 7 0 0 0xB1) = some (⟨28, 7, 0, 0⟩, 1) := by decide
theorem test_div_by_zero :
    faultAfter (at0 200 0 0 0 0xB1) = some (some ⟨.divisionByZero, 0, none⟩, ⟨200, 0, 0, 0⟩, 0) := by decide

theorem test_in_consumes_line :
    ((afterStep (at0 1 2 3 4 0xC2 .ignore [.line ['9'], .endOfStream])).map fun t => (t.pc, t.io, t.input)) =
      some (1, [.inp (.line ['9'])], [.endOfStream]) := by decide

theorem test_in_end_of_stream :
    faultAfter (at0 1 2 3 4 0xC3 .ignore [.endOfStream]) = some (some ⟨.inputStream, 0, none⟩, ⟨1, 2, 3, 4⟩, 0) := by decide

/-- Lines "42", "127", "128", "-1" and "abc", for a parser that reads them as decimal integers. -/
theorem test_in_clamp :
    [some 42, some 127, some 128, some (-1), none].map clampInput = [42#8, 127#8, 0#8, 0#8, 0#8] := by decide

theorem test_out_emits :
    ((afterStep (at0 1 2 3 200 0xC7)).map fun t => (t.pc, t.regs, t.io)) =
      some (1, ⟨1, 2, 3, 200⟩, [.out 200]) := by decide

theorem test_out_bit3_policies :
    ((afterStep (at0 1 2 3 4 0xCD)).map fun t => t.io) = some [.out 2] ∧
    faultAfter (at0 1 2 3 4 0xCD .unknown) = some (some ⟨.unknownOpcode, 0, some 4#3⟩, ⟨1, 2, 3, 4⟩, 0) := by decide

theorem test_reserved5 :
    faultAfter (at0 1 2 3 4 0xD0) = some (some ⟨.unknownOpcode, 0, some 5#3⟩, ⟨1, 2, 3, 4⟩, 0) := by decide
theorem test_reserved6 :
    faultAfter (at0 1 2 3 4 0xE5) = some (some ⟨.unknownOpcode, 0, some 6#3⟩, ⟨1, 2, 3, 4⟩, 0) := by decide
theorem test_reserved7 :
    faultAfter (at0 1 2 3 4 0xFF) = some (some ⟨.unknownOpcode, 0, some 7#3⟩, ⟨1, 2, 3, 4⟩, 0) := by decide

/-- The host's placement after reset runs the placed instruction first. -/
theorem test_placed_after_reset : regsAfter (State.reset.withFetchWord 8 0x05) = some (⟨5, 0, 0, 0⟩, 1) := by decide

/-- The blocks of D1 on the vector 200 / 7. -/
theorem test_datapath_div : (datapath 0xB1 (at0 200 7 0 0 0xB1)).regs = ⟨28, 7, 0, 0⟩ := by decide

/-! ### The toolchain (section 4) -/

/-- The assembler's answer as a number: 0..255 a byte, 256 no byte, then the errors. -/
def asmCode (line : String) : Nat :=
  match assembleLine line.toList with
  | .ok none => 256
  | .ok (some b) => b.toNat
  | .error (.unknownInstruction _) => 257
  | .error .invalidOperand => 258
  | .error .missingOperand => 259
  | .error .invalidRegister => 260
  | .error .extraOperands => 261

theorem test_assemble_bytes :
    ["  add a , b  ; comment", ";only a comment", "movi 127", "MOVI +7", "ADDa,b", "ADD apple,bob", "OUT d"].map asmCode =
      [0x81, 256, 0x7F, 0x07, 0x81, 0x81, 0xC7] := by decide

theorem test_assemble_errors :
    ["MOVI 128", "MOVI -1", "MOVI #5", "MOVI 5x", "ADD A,b", "ADD a", "ADD a,", "ADD a,b,c", "INC a", "OUT", "FOO"].map asmCode =
      [258, 258, 258, 258, 260, 259, 260, 261, 260, 259, 257] := by decide

/-- E4: an unknown opcode is rendered and the rest still follows. -/
theorem test_disassemble_E4 :
    disassemble .ignore [0x01, 0xD3, 0x02] =
      ["MOVI #1".toList, "??? (Unknown opcode: 5)".toList, "MOVI #2".toList] := by decide

/-! ### Witnesses: the hypotheses of the statements are met -/

/-- A run that stopped at 0xB1 with b = 0. -/
def faultedState : State := (at0 200 0 0 0 0xB1).raise .divisionByZero none

theorem witness_LayoutBitSelectsMovi :
    (0x7F#8 : Byte).getLsbD 7 = false ∧ (0x80#8 : Byte).getLsbD 7 = true := by decide

theorem witness_OpcodeMapOfLayoutB :
    [0x80#8, 0x9F#8, 0xA0#8, 0xBF#8, 0xC0#8, 0xCF#8, 0xD0#8, 0xE0#8, 0xFF#8].map
        (fun b : Byte => (b.getLsbD 7, b.extractLsb' 4 3)) =
      [(true, 0#3), (true, 1#3), (true, 2#3), (true, 3#3), (true, 4#3), (true, 4#3), (true, 5#3), (true, 6#3), (true, 7#3)] := by
  decide

theorem witness_ArithmeticFormatFields :
    [0x80#8, 0x9F#8, 0xA5#8, 0xB1#8].map (fun b : Byte => (b.extractLsb' 4 4, Reg.ofCode (b.extractLsb' 2 2), Reg.ofCode (b.extractLsb' 0 2))) =
      [(0b1000#4, .a, .a), (0b1001#4, .d, .d), (0b1010#4, .b, .b), (0b1011#4, .a, .b)] := by decide

theorem witness_IoFormatUnderBothPolicies :
    [0xC0#8, 0xC7#8, 0xC8#8, 0xCF#8].map (fun b : Byte => (b.extractLsb' 4 4, b.getLsbD 3)) =
      [(0b1100#4, false), (0b1100#4, false), (0b1100#4, true), (0b1100#4, true)] := by decide

theorem witness_UnknownEncodingsFaultWhenExecuted :
    [0xC7#8, 0xC8#8, 0xCF#8, 0xD0#8, 0xFF#8].map (fun b : Byte => unknownOpcodeOf (decode .unknown b)) =
      [none, some 4#3, some 4#3, some 5#3, some 7#3] ∧
    unknownOpcodeOf (decode .ignore 0xCF#8) = none ∧
    (at0 1 2 3 4 0xCF .unknown).policy = .unknown ∧ (at0 1 2 3 4 0xCF .unknown).status = .running ∧
    (at0 1 2 3 4 0xCF .unknown).fetch = some 0xCF#8 := by decide

theorem witness_DecodeInvertsEncode :
    (Instr.movi 127#7).wellFormed = true ∧ (Instr.out .d).wellFormed = true ∧ encode (.out .d) = some 0xC7#8 := by decide

theorem witness_EncodeInvertsDecode :
    decode .ignore 0xCF#8 = .instr (.out .d) ∧ (0xCF#8 : Byte).extractLsb' 3 5 = 0b11001#5 ∧
    decode .ignore 0x81#8 = .instr (.add .a .b) ∧ (0x81#8 : Byte).extractLsb' 3 5 ≠ 0b11001#5 := by decide

theorem witness_EncodersFollowTheLayout :
    (0 : Int) ≤ 127 ∧ (127 : Int) ≤ 127 ∧ ¬ (0 ≤ (128 : Int) ∧ (128 : Int) ≤ 127) ∧ ¬ (0 ≤ (-1 : Int) ∧ (-1 : Int) ≤ 127) := by
  decide

theorem witness_EncodersFollowTheLayout_register : ∀ r : Reg, 'e' ≠ r.letter := by
  intro r; cases r <;> decide

theorem witness_DatapathRealisesStep :
    (at0 200 7 0 0 0xB1).status = .running ∧ (at0 200 7 0 0 0xB1).fetch = some 0xB1#8 := by decide

theorem witness_AluComputesModulo256 : (255#8 : Byte) ≠ 0#8 ∧ (0#8 : Byte) = 0#8 := by decide

theorem witness_DivWritesQuotient : (at0 200 7 0 0 0xB1).getReg .b ≠ 0#8 := by decide

theorem witness_DivByZeroTakesFault : (at0 200 0 0 0 0xB1).getReg .b = 0#8 := by decide

theorem witness_SameRegisterUsesOldValue : (at0 9 0 0 0 0xB0).getReg .a ≠ 0#8 ∧ (at0 9 0 0 0 0xB0).getReg .b = 0#8 := by decide

theorem witness_InStoresDeliveredLine :
    (at0 1 2 3 4 0xC2 .ignore [.line ['9'], .endOfStream]).input = .line ['9'] :: [.endOfStream] := by decide

theorem witness_InAtEndOfStreamTakesFault : (at0 1 2 3 4 0xC3 .ignore [.endOfStream]).input = .endOfStream :: [] := by decide

theorem witness_InWaitsForDelivery : (at0 1 2 3 4 0xC2).input = [] ∧ (at0 1 2 3 4 0xC2).waiting = true := by decide

theorem witness_UnknownOpcodesTakeFault :
    (at0 1 2 3 4 0xC8 .unknown).status = .running ∧ (at0 1 2 3 4 0xC8 .unknown).fetch = some 0xC8#8 ∧
    decode (at0 1 2 3 4 0xC8 .unknown).policy 0xC8#8 = .unknown4 := by decide

/-- Register files that agree on what ADD a,b reads and differ elsewhere; an instruction that completes and one that does not. -/
theorem witness_RegisterReadAndWriteSets :
    (∀ r ∈ readsOf (.add .a .b), (Regs.mk 1 2 9 9).get r = (at0 1 2 3 4 0x81).getReg r) ∧
    Reg.c ∉ writesOf (.add .a .b) ∧
    ((afterStep (at0 1 2 3 4 0x81)).map fun t => t.pc) = some 1 ∧
    ((afterStep (at0 1 2 3 4 0xD0)).map fun t => t.pc) = some 0 := by decide

theorem witness_FaultsArePrecise :
    ((afterStep (at0 200 0 0 0 0xB1)).map fun t => t.fault.isSome) = some true ∧
    ((afterStep (at0 0 0 0 0 0xD0)).map fun t => t.fault.isSome) = some true ∧
    ((afterStep (at0 0 0 0 0 0xC0 .ignore [.endOfStream])).map fun t => t.fault.isSome) = some true := by decide

theorem witness_EachFaultHasItsCause :
    (at0 200 0 0 0 0xB1).fetch = some 0xB1#8 ∧ (afterStep (at0 200 0 0 0 0xB1)).isSome = true ∧
    decode .ignore 0xB1#8 = .instr (.div .a .b) ∧ (at0 200 0 0 0 0xB1).getReg .b = 0#8 := by decide

theorem witness_TerminalStatesTakeNoStep :
    State.reset.status = .halted ∧ faultedState.status = .faulted .divisionByZero := by decide

theorem witness_StepRunsDecodedInstruction :
    (at0 200 7 0 0 0xB1).status = .running ∧ (at0 200 7 0 0 0xB1).fetch = some 0xB1#8 ∧
    decode (at0 200 7 0 0 0xB1).policy 0xB1#8 = .instr (.div .a .b) := by decide

/-- The masked encodings of MoviWritesImmediate, AddWrapsModulo256, SubWrapsModulo256, MulKeepsLowByte, DivWritesQuotient and
OutEmitsRegister, at the first and the last byte of each. -/
theorem witness_masked_encodings :
    [0x00#8, 0x7F#8].map (· &&& 0x80#8) = [0x00#8, 0x00#8] ∧
    [0x80#8, 0x8F#8, 0x90#8, 0x9F#8, 0xA0#8, 0xAF#8, 0xB0#8, 0xBF#8].map (· &&& 0xF0#8) =
      [0x80#8, 0x80#8, 0x90#8, 0x90#8, 0xA0#8, 0xA0#8, 0xB0#8, 0xB0#8] ∧
    [0xC4#8, 0xC7#8].map (· &&& 0xFC#8) = [0xC4#8, 0xC4#8] := by decide

theorem witness_HistoryOnlyGrows :
    ((afterStep (at0 1 2 3 4 0xC4)).map fun t => t.io) = some [.out 1] := by decide

/-- States of the invariant: running, halted and faulted (the premise of EveryRunningStepAnswers, FetchStaysInsideProgram,
StatusIsFunctionOfState, RunEndsWithinProgramLength and DeliveryTouchesOnlyPendingInput). -/
theorem witness_Inv_running : (State.boot [0x05#8] .ignore).Inv ∧ (State.boot [0x05#8] .ignore).status = .running :=
  ⟨⟨by decide, by decide, fun _ h => (nomatch h), by simp⟩, by decide⟩

theorem witness_Inv_halted : State.reset.Inv ∧ State.reset.status = .halted :=
  ⟨⟨by decide, by decide, fun _ h => (nomatch h), by simp [State.reset]⟩, by decide⟩

theorem witness_Inv_faulted : faultedState.Inv ∧ faultedState.status = .faulted .divisionByZero :=
  ⟨⟨by decide, by decide, fun _ h => (by cases h; exact ⟨rfl, 0xB1#8, rfl, rfl, .a, .b, by decide, by decide⟩),
    by simp [faultedState, at0]⟩, by decide⟩

theorem witness_StepKeepsInvariant :
    (State.boot [0x05#8] .ignore).Inv ∧ ∃ t, step (State.boot [0x05#8] .ignore) = .next t :=
  ⟨witness_Inv_running.1, _, rfl⟩

theorem witness_PcMovesByOne :
    ((afterStep (at0 1 2 3 4 0x05)).map fun t => (t.fault, t.pc)) = some (none, 1) ∧
    ((afterStep (at0 1 2 3 4 0xC0)).map fun t => (t.fault, t.pc)) = some (none, 0) ∧
    ((afterStep (at0 1 2 3 4 0xFF)).map fun t => (t.fault.isSome, t.pc)) = some (true, 0) := by decide

theorem witness_ResultFollowsStatus :
    State.reset.status = .halted ∧ faultedState.status = .faulted .divisionByZero ∧
    (State.boot [0x05#8] .ignore).status = .running := by decide

/-- The premises of RunEndsWithinProgramLength: P2 (six instructions, two INs and two events) and P8 (four, one and one), with
as many INs as events, and a program with no IN and no event. -/
theorem witness_RunEnds_P2 :
    { State.boot [0xC2, 0xC3, 0x8A, 0x8A, 0x9E, 0xC7] .ignore with input := [.line ['1'], .line ['2']] }.Inv ∧
    { State.boot [0xC2, 0xC3, 0x8A, 0x8A, 0x9E, 0xC7] .ignore with input := [.line ['1'], .line ['2']] }.inputsLeft = 2 :=
  ⟨⟨by decide, by decide, fun _ h => (nomatch h), by simp⟩, by decide⟩

theorem witness_RunEnds_P8 :
    ((State.boot [0x05, 0x81, 0xC2, 0xC7] .ignore).deliver (.line ['9'])).Inv ∧
    ((State.boot [0x05, 0x81, 0xC2, 0xC7] .ignore).deliver (.line ['9'])).inputsLeft = 1 :=
  ⟨⟨by decide, by decide, fun _ h => (nomatch h), by simp⟩, by decide⟩

theorem witness_RunEnds_no_in : (State.boot [0x05] .ignore).inputsLeft ≤ (State.boot [0x05] .ignore).input.length := by decide

theorem witness_AssembledProgramsIgnorePolicy : EncoderWritten (Memory.ofBytes [0x05#8, 0xC2#8]) := by
  intro k b h
  rw [Memory.read_ofBytes] at h
  have hb : b ∈ [0x05#8, 0xC2#8] := List.mem_of_getElem? h
  rcases List.mem_cons.mp hb with rfl | hb
  · exact ⟨.movi 5#7, by decide⟩
  · rw [List.mem_singleton] at hb
    exact ⟨.inp .c, by subst hb; decide⟩

theorem witness_PlacedInstructionRunsNext :
    decode (at0 1 2 3 4 0xFF).policy (BitVec.ofNat 8 0x81) = .instr (.add .a .b) ∧
    (State.boot [1#8, 2#8] .ignore).prog.wf = true ∧ 1 < (State.boot [1#8, 2#8] .ignore).progLen ∧
    1 ≠ (State.boot [1#8, 2#8] .ignore).pc := by decide

theorem witness_CommentsAndSpaceAreStripped :
    ';' ∉ ['I', 'N', ' ', 'a'] ∧ (∀ ch ∈ [' ', '\t'], isSpace ch = true) :=
  ⟨by simp, by simp [isSpace]⟩

theorem witness_FirstMnemonicPrefixWins :
    preprocess "FOO".toList ≠ [] ∧
    (∀ entry ∈ mnemonicList, entry.1.isPrefixOf ((preprocess "FOO".toList).map Char.toUpper) = false) := by
  have all : (mnemonicList.all fun e => !(e.1.isPrefixOf ((preprocess "FOO".toList).map Char.toUpper))) = true := rfl
  exact ⟨by decide, fun e he => by simpa using List.all_eq_true.mp all e he⟩

/-- Literals with each sign at the ends of the range and just outside it, and a token that is none. -/
theorem witness_MoviOperandIsWholeLiteral :
    DecimalLiteral ['-', '0'] 0 ∧ DecimalLiteral ['+', '1', '2', '7'] 127 ∧ DecimalLiteral ['1', '2', '8'] 128 ∧
    DecimalLiteral ['-', '1'] (-1) ∧ ∀ v, ¬ DecimalLiteral ['5', 'x'] v :=
  ⟨⟨[0], by decide, .inr (.inr ⟨rfl, rfl⟩)⟩, ⟨[1, 2, 7], by decide, .inr (.inl ⟨rfl, rfl⟩)⟩,
    ⟨[1, 2, 8], by decide, .inl ⟨rfl, rfl⟩⟩, ⟨[1], by decide, .inr (.inr ⟨rfl, rfl⟩)⟩,
    fun v h => nomatch (parseLiteral_eq_some_iff ['5', 'x'] v).mpr h⟩

theorem witness_RegisterOperandsAreChecked : ∀ r : Reg, (['A'] : Text).head? ≠ some r.letter ∧ 'A' ≠ r.letter := by
  intro r; cases r <;> decide

theorem witness_BatchStopsAtFirstFailure :
    assembleLine "MOVI 1".toList = .ok (some 0x01#8) ∧ assembleLine "MOVI #5".toList = .error .invalidOperand :=
  ⟨rfl, rfl⟩

theorem witness_DisassemblyInvertsAssembly :
    assembleFile ["MOVI 5".toList, "; nothing".toList, "OUT d".toList] = .ok [0x05#8, 0xC7#8] := rfl

end Sys2Proof.Tests
end

section
/-! PROOFS. The state (spec/10_state.md): the registers and their codes (R20), and the run status (R28). -/

namespace Sys2Proof.Machine

/-! ### Registers -/

/-- The reset values of R24 and R190. -/
@[simp] theorem Regs.get_reset (r : Reg) : Regs.reset.get r = 0#8 := by
  cases r <;> rfl

@[simp] theorem getReg_reset (r : Reg) : State.reset.getReg r = 0#8 :=
  Regs.get_reset r

/-- Settles O3: the codes by definition, `Reg.ofCode` and `Reg.code` inverse to each other, and the reset register file. -/
theorem registerCodesInOrder : Obligations.RegisterCodesInOrder :=
  ⟨rfl, rfl, rfl, rfl, Reg.code_ofCode, Reg.ofCode_code, getReg_reset⟩

/-! ### The run status -/

/-- Within the program's bounds (R26), Running means that the pc has a byte still to run. -/
theorem status_running_iff_lt {s : State} (hpc : s.pc ≤ s.progLen) :
    s.status = .running ↔ s.pc < s.progLen ∧ s.fault = none := by
  rw [status_running_iff, and_comm, hpc.lt_iff_ne]

/-- A step that answers a next state was enabled (R36). -/
theorem status_running_of_step_next {s t : State} (h : step s = .next t) : s.status = .running := by
  obtain ⟨hfault, hpc, _⟩ := step_next_cases h
  exact (status_running_iff s).mpr ⟨hfault, hpc⟩

/-- Settles O37. Only Running needs the invariant, for its bound on the pc: past the end of the program the status would be
Running too. -/
theorem statusIsFunctionOfState : Obligations.StatusIsFunctionOfState := by
  intro s inv
  refine ⟨status_running_iff_lt inv.pc_le, ?halted, status_faulted_iff s, ?terminal⟩
  case halted => rw [status_halted_iff, and_comm]
  case terminal => exact fun hne t hstep => hne (status_running_of_step_next hstep)

end Sys2Proof.Machine
end

section
/-! PROOFS. The program space (spec/20_memory.md): a fetch stays inside it (R41), and no run writes it (R42). -/

namespace Sys2Proof.Machine

/-! ### The fetch -/

/-- Once a byte is fetched, the step answers, in one of the ways of `Effect`. -/
theorem step_effect_of_fetch {s : State} {b : Byte} (hrunning : s.status = .running) (hfetch : s.fetch = some b) :
    ∃ t, step s = .next t ∧ Effect s t := by
  rw [step_of_fetch hrunning hfetch]
  exact runDecoded_effect _ s

/-- The one cause of the stop for a fetch outside the program: an enabled step that finds no byte at the pc. -/
theorem step_fetchOutside_iff (s : State) (k : Nat) :
    step s = .fault (.fetchOutsideProgram k) ↔ s.status = .running ∧ s.fetch = none ∧ k = s.pc := by
  cases hstatus : s.status with
  | halted => simp [step, hstatus]
  | faulted reason => simp [step, hstatus]
  | running =>
    cases hfetch : s.fetch with
    | none => simp [step, hstatus, hfetch, eq_comm]
    | some b =>
      obtain ⟨t, hstep, _⟩ := step_effect_of_fetch hstatus hfetch
      simp [hstep]

/-- Of the invariant, R41 needs the bound on the pc and the flat sequence of bytes. -/
theorem State.Inv.fetch_of_running {s : State} (inv : s.Inv) (hrunning : s.status = .running) :
    s.pc < s.progLen ∧ ∃ b, s.fetch = some b := by
  obtain ⟨hlt, _⟩ := (status_running_iff_lt inv.pc_le).mp hrunning
  exact ⟨hlt, Memory.read_of_lt inv.prog_wf hlt⟩

/-- Settles O36: a running state of the invariant has a byte at the pc, so the one cause of the stop is not there. -/
theorem fetchStaysInsideProgram : Obligations.FetchStaysInsideProgram := by
  intro s inv
  refine ⟨fun hrunning => ?inside, fun k hstop => ?noStop⟩
  case inside =>
    obtain ⟨hlt, b, hfetch⟩ := inv.fetch_of_running hrunning
    have hbyte : s.prog.bytes[s.pc]? = some b := (Memory.read_eq_bytes inv.prog_wf s.pc).symm.trans hfetch
    exact ⟨hlt, b, hfetch, hbyte⟩
  case noStop =>
    obtain ⟨hrunning, hnone, _⟩ := (step_fetchOutside_iff s k).mp hstop
    obtain ⟨_, b, hfetch⟩ := inv.fetch_of_running hrunning
    simp [hnone] at hfetch

/-! ### The program space is read-only -/

/-- No step writes the program space or changes the policy. -/
theorem step_next_prog_policy {s t : State} (h : step s = .next t) : t.prog = s.prog ∧ t.policy = s.policy := by
  obtain ⟨_, _, _, _, _, heffect⟩ := step_next_cases h
  exact heffect.prog_policy

@[simp] theorem runFor_prog (n : Nat) (s : State) : (runFor n s).prog = s.prog := by
  refine runFor_induct (P := fun s t => t.prog = s.prog) (fun _ => rfl) ?front n s
  case front =>
    intro s t u hstep hrest
    exact hrest.trans (step_next_prog_policy hstep).1

/-- Settles O39: the whole memory is kept by a run, hence every read of it. -/
theorem programIsReadOnly : Obligations.ProgramIsReadOnly := by
  intro n s
  exact ⟨runFor_prog n s, fun k => by rw [runFor_prog]⟩

end Sys2Proof.Machine
end

section
/-! PROOFS. The layout of a byte (spec/30_encoding.md sections 1 and 2): the fields as bits and as numbers (R62), and the
decoder's answer for each layout and opcode (R61, R63 to R66, R69, R71). -/

namespace Sys2Proof.Machine

/-! ### Fields -/

/-- Settles O2, by the codec's law for each of the eight fields. -/
theorem fieldsAreBitRanges : Obligations.FieldsAreBitRanges := by
  intro b
  exact ⟨layoutField_eq b, imm7Field_eq b, opcField_eq b, r1Field_eq b, r2Field_eq b, rsvdField_eq b, dirField_eq b,
    trField_eq b⟩

/-- Fields placed side by side, as a number. -/
theorem toNat_append_eq_add {m n : Nat} (x : BitVec m) (y : BitVec n) : (x ++ y).toNat = x.toNat * 2 ^ n + y.toNat := by
  rw [BitVec.toNat_append, ← Nat.shiftLeft_add_eq_or_of_lt y.isLt, Nat.shiftLeft_eq]

/-- A bit of a byte as a digit of its number. -/
theorem getLsbD_iff_toNat (b : Byte) (i : Nat) : b.getLsbD i = true ↔ b.toNat / 2 ^ i % 2 = 1 := by
  rw [← BitVec.testBit_toNat, Nat.testBit_eq_decide_div_mod_eq, decide_eq_true_iff]

/-- A bit range of a byte as a number. -/
theorem toNat_bitRange (b : Byte) (i n : Nat) : (b.extractLsb' i n).toNat = b.toNat / 2 ^ i % 2 ^ n := by
  rw [BitVec.extractLsb'_toNat, Nat.shiftRight_eq_div_pow]

/-- The decoder compares a one-bit field with 0 or 1; the statements ask for the bit. -/
theorem bitField_eq_one_iff (b : Byte) (i : Nat) : b.extractLsb' i 1 = 1#1 ↔ b.getLsbD i = true := by
  rw [getLsbD_iff_toNat, ← BitVec.toNat_inj, toNat_bitRange]
  rfl

theorem bitField_eq_zero_iff (b : Byte) (i : Nat) : b.extractLsb' i 1 = 0#1 ↔ b.getLsbD i = false := by
  rw [← Bool.not_eq_true, getLsbD_iff_toNat, ← BitVec.toNat_inj, toNat_bitRange]
  exact Nat.mod_two_ne_one.symm

/-- The high nibble is the layout bit followed by the opcode (R61, R64). -/
theorem layoutB_opcode_of_highNibble {b : Byte} {k : BitVec 3} (h : b.extractLsb' 4 4 = 1#1 ++ k) :
    b.getLsbD 7 = true ∧ b.extractLsb' 4 3 = k := by
  have hnum : b.toNat / 16 % 16 = 8 + k.toNat := by
    have := congrArg BitVec.toNat h
    rwa [toNat_bitRange, toNat_append_eq_add] at this
  have hk := k.isLt
  constructor
  · rw [getLsbD_iff_toNat]
    omega
  · rw [← BitVec.toNat_inj, toNat_bitRange]
    omega

/-! ### The decoder, case by case -/

section
variable {p : IoBit3Policy} {b : Byte}

/-- Layout A holds MOVI alone (R61, R63). -/
theorem decode_layoutA (hbit7 : b.getLsbD 7 = false) : decode p b = .instr (.movi (b.extractLsb' 0 7)) := by
  rw [decode, layoutField_eq, if_pos ((bitField_eq_zero_iff b 7).mpr hbit7), imm7Field_eq]

theorem decode_layoutB (hbit7 : b.getLsbD 7 = true) : decode p b = decodeLayoutB p b := by
  rw [decode, layoutField_eq, if_neg]
  simp [bitField_eq_zero_iff, hbit7]

/-- The arithmetic instruction of an ALU operation (R64): ADD, SUB, MUL and DIV share one format (R65). -/
def arithInstr : AluOp → Reg → Reg → Instr
  | .add => .add
  | .sub => .sub
  | .mul => .mul
  | .div => .div

/-- Opcodes 0 to 3 (R64, R65): the operation's own opcode selects it. -/
theorem decodeLayoutB_arith {op : AluOp} (hopc : b.extractLsb' 4 3 = op.opc) :
    decodeLayoutB p b = .instr (arithInstr op (Reg.ofCode (b.extractLsb' 2 2)) (Reg.ofCode (b.extractLsb' 0 2))) := by
  cases op <;> simp [decodeLayoutB, arithInstr, opcField_eq, r1Field_eq, r2Field_eq, hopc, AluOp.opc]

theorem decodeLayoutB_io (hopc : b.extractLsb' 4 3 = 4#3) : decodeLayoutB p b = decodeIo p b := by
  simp [decodeLayoutB, opcField_eq, hopc]

theorem decodeLayoutB_reserved5 (hopc : b.extractLsb' 4 3 = 5#3) : decodeLayoutB p b = .instr .reserved5 := by
  simp [decodeLayoutB, opcField_eq, hopc]

theorem decodeLayoutB_reserved6 (hopc : b.extractLsb' 4 3 = 6#3) : decodeLayoutB p b = .instr .reserved6 := by
  simp [decodeLayoutB, opcField_eq, hopc]

theorem decodeLayoutB_reserved7 (hopc : b.extractLsb' 4 3 = 7#3) : decodeLayoutB p b = .instr .reserved7 := by
  simp [decodeLayoutB, opcField_eq, hopc]

/-- The one IO encoding that is unknown (R69). -/
theorem decodeIo_unknown (hbit3 : b.getLsbD 3 = true) (hpolicy : p = .unknown) : decodeIo p b = .unknown4 := by
  rw [decodeIo, rsvdField_eq, if_pos ⟨(bitField_eq_one_iff b 3).mpr hbit3, hpolicy⟩]

/-- Every other IO encoding is an IN or an OUT, by bit 2 (R66). -/
theorem decodeIo_defined (hdefined : ¬ (b.getLsbD 3 = true ∧ p = .unknown)) :
    decodeIo p b = if b.getLsbD 2 then .instr (.out (Reg.ofCode (b.extractLsb' 0 2)))
      else .instr (.inp (Reg.ofCode (b.extractLsb' 0 2))) := by
  simp only [decodeIo, rsvdField_eq, dirField_eq, trField_eq, bitField_eq_one_iff, bitField_eq_zero_iff, if_neg hdefined]
  cases b.getLsbD 2 <;> rfl

end

/-! ### Everything the decoder can answer in layout B -/

/-- The verdicts on a layout B byte, each with the bits that select it. -/
inductive LayoutBVerdict (p : IoBit3Policy) (b : Byte) : Decoded → Prop where
  | arith (op : AluOp) (hopc : b.extractLsb' 4 3 = op.opc) :
      LayoutBVerdict p b
        (.instr (arithInstr op (Reg.ofCode (b.extractLsb' 2 2)) (Reg.ofCode (b.extractLsb' 0 2))))
  | inp (hopc : b.extractLsb' 4 3 = 4#3) (hdefined : ¬ (b.getLsbD 3 = true ∧ p = .unknown)) (hdir : b.getLsbD 2 = false) :
      LayoutBVerdict p b (.instr (.inp (Reg.ofCode (b.extractLsb' 0 2))))
  | out (hopc : b.extractLsb' 4 3 = 4#3) (hdefined : ¬ (b.getLsbD 3 = true ∧ p = .unknown)) (hdir : b.getLsbD 2 = true) :
      LayoutBVerdict p b (.instr (.out (Reg.ofCode (b.extractLsb' 0 2))))
  | unknown4 (hopc : b.extractLsb' 4 3 = 4#3) (hbit3 : b.getLsbD 3 = true) (hpolicy : p = .unknown) :
      LayoutBVerdict p b .unknown4
  | reserved5 (hopc : b.extractLsb' 4 3 = 5#3) : LayoutBVerdict p b (.instr .reserved5)
  | reserved6 (hopc : b.extractLsb' 4 3 = 6#3) : LayoutBVerdict p b (.instr .reserved6)
  | reserved7 (hopc : b.extractLsb' 4 3 = 7#3) : LayoutBVerdict p b (.instr .reserved7)

/-- The opcode map is total (R64). -/
theorem opcode_cases (k : BitVec 3) :
    (k = AluOp.opc .add ∨ k = AluOp.opc .sub ∨ k = AluOp.opc .mul ∨ k = AluOp.opc .div) ∨
      k = 4#3 ∨ k = 5#3 ∨ k = 6#3 ∨ k = 7#3 := by
  revert k; decide

theorem decodeIo_verdict {b : Byte} (p : IoBit3Policy) (hopc : b.extractLsb' 4 3 = 4#3) :
    LayoutBVerdict p b (decodeIo p b) := by
  by_cases hunknown : b.getLsbD 3 = true ∧ p = .unknown
  · obtain ⟨hbit3, hpolicy⟩ := hunknown
    rw [decodeIo_unknown hbit3 hpolicy]
    exact .unknown4 hopc hbit3 hpolicy
  · rw [decodeIo_defined hunknown]
    cases hdir : b.getLsbD 2 with
    | false => exact .inp hopc hunknown hdir
    | true => exact .out hopc hunknown hdir

theorem decode_verdict {b : Byte} (p : IoBit3Policy) (hbit7 : b.getLsbD 7 = true) : LayoutBVerdict p b (decode p b) := by
  have arith {op : AluOp} (hopc : b.extractLsb' 4 3 = op.opc) : LayoutBVerdict p b (decodeLayoutB p b) := by
    rw [decodeLayoutB_arith hopc]
    exact .arith op hopc
  rw [decode_layoutB hbit7]
  rcases opcode_cases (b.extractLsb' 4 3) with (h | h | h | h) | h | h | h | h
  · exact arith h
  · exact arith h
  · exact arith h
  · exact arith h
  · rw [decodeLayoutB_io h]; exact decodeIo_verdict p h
  · rw [decodeLayoutB_reserved5 h]; exact .reserved5 h
  · rw [decodeLayoutB_reserved6 h]; exact .reserved6 h
  · rw [decodeLayoutB_reserved7 h]; exact .reserved7 h

theorem arithInstr_ne_movi (op : AluOp) (r1 r2 : Reg) (v : BitVec 7) : arithInstr op r1 r2 ≠ .movi v := by
  cases op <;> exact Instr.noConfusion

/-- Settles O4: layout A is MOVI by its equation, and no verdict on a layout B byte is a MOVI. -/
theorem layoutBitSelectsMovi : Obligations.LayoutBitSelectsMovi := by
  intro p b
  refine ⟨decode_layoutA, fun hbit7 v hmovi => ?_⟩
  have hverdict := decode_verdict p hbit7
  generalize decode p b = d at hverdict hmovi
  cases hverdict with
  | arith op _ => exact arithInstr_ne_movi op _ _ v (Decoded.instr.inj hmovi)
  | inp | out | unknown4 | reserved5 | reserved6 | reserved7 => cases hmovi

/-- The arithmetic format (R65): a high nibble of 1 and the operation's opcode. -/
theorem decode_arith_of_highNibble (p : IoBit3Policy) {b : Byte} {op : AluOp} (h : b.extractLsb' 4 4 = 1#1 ++ op.opc) :
    decode p b = .instr (arithInstr op (Reg.ofCode (b.extractLsb' 2 2)) (Reg.ofCode (b.extractLsb' 0 2))) := by
  obtain ⟨hbit7, hopc⟩ := layoutB_opcode_of_highNibble h
  rw [decode_layoutB hbit7, decodeLayoutB_arith hopc]

/-- Settles O6: the one arithmetic format at each of the four operations. -/
theorem arithmeticFormatFields : Obligations.ArithmeticFormatFields := by
  rintro p b _ _ rfl rfl
  exact ⟨decode_arith_of_highNibble p (op := .add), decode_arith_of_highNibble p (op := .sub),
    decode_arith_of_highNibble p (op := .mul), decode_arith_of_highNibble p (op := .div)⟩

end Sys2Proof.Machine
end

section
/-! PROOFS. The encoders as numbers (spec/30_encoding.md section 3, R74). -/

namespace Sys2Proof.Machine

theorem toNat_moviByte (v : BitVec 7) : (moviByte v).toNat = v.toNat := by
  rw [moviByte, toNat_append_eq_add]
  exact Nat.zero_add _

theorem toNat_arithByte (op : AluOp) (r1 r2 : Reg) :
    (arithByte op r1 r2).toNat = 0x80 + op.opc.toNat * 16 + r1.code.toNat * 4 + r2.code.toNat := by
  simp only [arithByte, toNat_append_eq_add, BitVec.toNat_ofNat]
  omega

theorem toNat_ioByte (dir : Dir) (r : Reg) : (ioByte dir r).toNat = 0xC0 + dir.bit.toNat * 4 + r.code.toNat := by
  simp only [ioByte, toNat_append_eq_add, BitVec.toNat_ofNat]
  omega

/-- The IO encoder leaves the reserved bit clear (R69). -/
theorem ioByte_bit3 (dir : Dir) (r : Reg) : (ioByte dir r).getLsbD 3 = false := by
  have hdir := dir.bit.isLt
  have hcode := r.code.isLt
  rw [← Bool.not_eq_true, getLsbD_iff_toNat, toNat_ioByte]
  omega

theorem encodeMovi_inRange {v : Int} (h : 0 ≤ v ∧ v ≤ 127) :
    ∃ b, encodeMovi v = .ok b ∧ (b.toNat : Int) = v := by
  refine ⟨_, if_pos h, ?_⟩
  rw [toNat_moviByte, BitVec.toNat_ofInt]
  omega

theorem encodeMovi_outOfRange {v : Int} (h : ¬ (0 ≤ v ∧ v ≤ 127)) : encodeMovi v = .error .rangeError :=
  if_neg h

theorem encodeArithmetic_letters (op : AluOp) (r1 r2 : Reg) :
    encodeArithmetic op r1.letter r2.letter = .ok (arithByte op r1 r2) := by
  simp [encodeArithmetic]

/-- Either operand alone is enough for the error. -/
theorem encodeArithmetic_invalid (op : AluOp) {c1 c2 : Char} (h : (∀ r : Reg, c1 ≠ r.letter) ∨ (∀ r : Reg, c2 ≠ r.letter)) :
    encodeArithmetic op c1 c2 = .error .invalidRegisterError := by
  rcases h with h1 | h2
  · simp [encodeArithmetic, Reg.ofLetter_eq_none h1]
  · simp [encodeArithmetic, Reg.ofLetter_eq_none h2]

theorem encodeIo_letter (dir : Dir) (r : Reg) : encodeIo dir r.letter = .ok (ioByte dir r) := by
  simp [encodeIo]

theorem encodeIo_invalid (dir : Dir) {ch : Char} (h : ∀ r : Reg, ch ≠ r.letter) :
    encodeIo dir ch = .error .invalidRegisterError := by
  simp [encodeIo, Reg.ofLetter_eq_none h]

/-- Settles O12: each encoder's byte as a number and its error; the codes and letters are the definitions' own. -/
theorem encodersFollowTheLayout : Obligations.EncodersFollowTheLayout := by
  refine ⟨?movi, ?arith, ?arithInvalid, ?io, ?ioInvalid, rfl, rfl, rfl, rfl, rfl, rfl, rfl, rfl, rfl, rfl⟩
  case movi => exact fun v => ⟨encodeMovi_inRange, encodeMovi_outOfRange⟩
  case arith => exact fun op r1 r2 => ⟨_, encodeArithmetic_letters op r1 r2, toNat_arithByte op r1 r2⟩
  case arithInvalid => exact fun op c1 c2 => encodeArithmetic_invalid op
  case io => exact fun dir r => ⟨_, encodeIo_letter dir r, toNat_ioByte dir r, ioByte_bit3 dir r⟩
  case ioInvalid => exact fun dir ch => encodeIo_invalid dir

end Sys2Proof.Machine
end

section
/-! PROOFS. Unknown encodings (spec/30_encoding.md R71): which bytes they are, their execution (60_exceptions.md R164), and
their place in a disassembly (R92). -/

namespace Sys2Proof.Machine

/-- The unknown bytes by number (R69, R71). -/
def UnknownEncoding (p : IoBit3Policy) (b : Byte) : Prop :=
  0xD0 ≤ b.toNat ∨ (p = .unknown ∧ 0xC8 ≤ b.toNat ∧ b.toNat ≤ 0xCF)

/-- In layout B the unknown bytes are those of opcodes 5 to 7, and under UNKNOWN those of opcode 4 with bit 3 set. -/
theorem unknownEncoding_iff_fields {p : IoBit3Policy} {b : Byte} (hbit7 : b.getLsbD 7 = true) :
    UnknownEncoding p b ↔
      5 ≤ (b.extractLsb' 4 3).toNat ∨ (b.extractLsb' 4 3 = 4#3 ∧ b.getLsbD 3 = true ∧ p = .unknown) := by
  have hbyte := b.isLt
  rw [getLsbD_iff_toNat] at hbit7
  rw [UnknownEncoding, ← BitVec.toNat_inj, toNat_bitRange, getLsbD_iff_toNat]
  by_cases hpolicy : p = .unknown
  · simp only [hpolicy, true_and, and_true, BitVec.toNat_ofNat]
    omega
  · simp only [hpolicy, false_and, and_false, or_false]
    omega

theorem not_unknownEncoding_of_layoutA (p : IoBit3Policy) {b : Byte} (hbit7 : b.getLsbD 7 = false) :
    ¬ UnknownEncoding p b := by
  have hbyte := b.isLt
  rw [← Bool.not_eq_true, getLsbD_iff_toNat] at hbit7
  rw [UnknownEncoding]
  omega

@[simp] theorem unknownOpcodeOf_arithInstr (op : AluOp) (r1 r2 : Reg) :
    unknownOpcodeOf (.instr (arithInstr op r1 r2)) = none := by
  cases op <;> rfl

/-- Exactly the unknown bytes get an unknown verdict, and it carries the byte's own opcode (R71). -/
theorem unknownOpcodeOf_decode_iff (p : IoBit3Policy) (b : Byte) (k : BitVec 3) :
    unknownOpcodeOf (decode p b) = some k ↔ UnknownEncoding p b ∧ k = b.extractLsb' 4 3 := by
  cases hbit7 : b.getLsbD 7 with
  | false => simp [decode_layoutA hbit7, not_unknownEncoding_of_layoutA p hbit7, unknownOpcodeOf]
  | true =>
    have hverdict := decode_verdict p hbit7
    generalize decode p b = d at hverdict
    rw [unknownEncoding_iff_fields hbit7]
    cases hverdict with
    | arith op hopc => cases op <;> simp [hopc, AluOp.opc]
    | inp hopc hdefined _ =>
      simp only [hopc, hdefined, unknownOpcodeOf]
      simp
    | out hopc hdefined _ =>
      simp only [hopc, hdefined, unknownOpcodeOf]
      simp
    | unknown4 hopc hbit3 hpolicy =>
      simp only [hopc, hbit3, hpolicy, unknownOpcodeOf]
      simp [@eq_comm _ k]
    | reserved5 hopc => simp [hopc, unknownOpcodeOf, @eq_comm _ k]
    | reserved6 hopc => simp [hopc, unknownOpcodeOf, @eq_comm _ k]
    | reserved7 hopc => simp [hopc, unknownOpcodeOf, @eq_comm _ k]

/-- The four unknown verdicts (R71). -/
theorem unknownOpcodeOf_eq_some_iff {d : Decoded} {k : BitVec 3} :
    unknownOpcodeOf d = some k ↔
      (d = .unknown4 ∧ k = 4#3) ∨ (d = .instr .reserved5 ∧ k = 5#3) ∨ (d = .instr .reserved6 ∧ k = 6#3) ∨
        (d = .instr .reserved7 ∧ k = 7#3) := by
  cases d with
  | unknown4 => simp [unknownOpcodeOf, eq_comm]
  | instr i => cases i <;> simp [unknownOpcodeOf, eq_comm]

/-- An unknown verdict, run, is the fault of R164. -/
theorem runDecoded_unknown {d : Decoded} {k : BitVec 3} (h : unknownOpcodeOf d = some k) (s : State) :
    runDecoded d s = .next (s.raise .unknownOpcode (some k)) := by
  obtain ⟨rfl, rfl⟩ | ⟨rfl, rfl⟩ | ⟨rfl, rfl⟩ | ⟨rfl, rfl⟩ := unknownOpcodeOf_eq_some_iff.mp h <;> rfl

/-- A running step at an unknown byte. -/
theorem step_unknown {s : State} {b : Byte} {k : BitVec 3} (hrunning : s.status = .running) (hfetch : s.fetch = some b)
    (h : unknownOpcodeOf (decode s.policy b) = some k) : step s = .next (s.raise .unknownOpcode (some k)) := by
  rw [step_of_fetch hrunning hfetch, runDecoded_unknown h]

/-- An unknown byte's own line (R92). -/
theorem disassembleByte_unknown {p : IoBit3Policy} {b : Byte} {k : BitVec 3} (h : unknownOpcodeOf (decode p b) = some k) :
    disassembleByte p b = renderUnknown k.toNat := by
  obtain ⟨hd, rfl⟩ | ⟨hd, rfl⟩ | ⟨hd, rfl⟩ | ⟨hd, rfl⟩ := unknownOpcodeOf_eq_some_iff.mp h <;>
    simp [disassembleByte, hd, render]

/-- Each byte is rendered on its own, so what stands before and after it is rendered as without it (R90). -/
theorem disassemble_append_cons (p : IoBit3Policy) (before after : List Byte) (b : Byte) :
    disassemble p (before ++ b :: after) = disassemble p before ++ disassembleByte p b :: disassemble p after := by
  simp [disassemble]

/-- Settles O8: the set and the opcode by `unknownOpcodeOf_decode_iff`, the fault by `step_unknown`, the disassembly line by
line. -/
theorem unknownEncodingsFaultWhenExecuted : Obligations.UnknownEncodingsFaultWhenExecuted := by
  intro p b
  refine ⟨?bytes, fun k hk => ⟨?opcode, ?fault, ?goesOn⟩⟩
  case bytes =>
    simp only [Option.isSome_iff_exists, unknownOpcodeOf_decode_iff, exists_and_left, exists_eq, and_true]
    rfl
  case opcode => exact ((unknownOpcodeOf_decode_iff p b k).mp hk).2
  case fault =>
    rintro s rfl hrunning hfetch
    exact ⟨_, step_unknown hrunning hfetch hk, rfl, rfl⟩
  case goesOn =>
    intro before after
    rw [disassemble_append_cons, disassembleByte_unknown hk]

end Sys2Proof.Machine
end

section
/-! PROOFS. MOVI (spec/40_movi.md): its byte, its source line through the assembler (30_encoding.md R80 to R83), and its
effect with the frame (R100). -/

namespace Sys2Proof.Machine

/-! ### Completing by a register write -/

/-- An instruction whose whole effect is one register write and the advance of the pc (10_state.md R25). -/
theorem completesWriting_setReg_advance (r : Reg) (v : Byte) (s : State) : CompletesWriting r s ((s.setReg r v).advance) :=
  ⟨fun _ hq => getReg_setReg_ne s v hq, rfl, rfl, ⟨rfl, rfl⟩, fun _ => rfl, rfl, rfl⟩

theorem toNat_zext8 (v : BitVec 7) : (zext8 v).toNat = v.toNat :=
  BitVec.toNat_setWidth_of_le (by decide)

/-- Zero extension leaves the sign bit clear. -/
theorem zext8_bit7 (v : BitVec 7) : (zext8 v).getLsbD 7 = false := by
  have hv := v.isLt
  rw [← Bool.not_eq_true, getLsbD_iff_toNat, toNat_zext8]
  omega

/-! ### The byte -/

/-- The mask 0x80 selects bit 7 (R63). -/
theorem bit7_of_mask_eq_zero {b : Byte} (h : b &&& 0x80#8 = 0#8) : b.getLsbD 7 = false := by
  simpa using congrArg (·.getLsbD 7) h

theorem encodeMovi_toNat (v : BitVec 7) : encodeMovi v.toNat = .ok (moviByte v) := by
  have hv := v.isLt
  rw [encodeMovi, if_pos (by omega), BitVec.ofInt_natCast, BitVec.ofNat_toNat, BitVec.setWidth_eq]

theorem disassembleByte_moviByte (p : IoBit3Policy) (v : BitVec 7) :
    disassembleByte p (moviByte v) = "MOVI #".toList ++ decimal v.toNat := by
  rw [disassembleByte, decode_moviByte]
  rfl

/-! ### Decimal numerals

The digits that `decimal` writes are a literal of R83, and hold no character that the assembler cuts at. -/

theorem digitValue_concat (ds : List (Fin 10)) (d : Fin 10) : digitValue (ds ++ [d]) = 10 * digitValue ds + d.val := by
  simp [digitValue, Nat.ofDigits_cons, Nat.add_comm]

theorem digitText_concat (ds : List (Fin 10)) (d : Fin 10) : digitText (ds ++ [d]) = digitText ds ++ [Nat.digitChar d] := by
  simp [digitText]

theorem decimal_eq_digitText (n : Nat) : ∃ ds : List (Fin 10), ds ≠ [] ∧ decimal n = digitText ds ∧ n = digitValue ds := by
  induction n using Nat.strong_induction_on with
  | _ n ih =>
    by_cases hn : n < 10
    · exact ⟨[⟨n, hn⟩], by simp, Nat.toDigits_of_lt_base hn, by simp [digitValue]⟩
    · obtain ⟨ds, _, text, value⟩ := ih (n / 10) (by omega)
      refine ⟨ds ++ [⟨n % 10, by omega⟩], by simp, ?_, ?_⟩
      · rw [digitText_concat, ← text]
        exact Nat.toDigits_of_base_le (by decide) (by omega)
      · rw [digitValue_concat, ← value]
        exact (Nat.div_add_mod n 10).symm

/-- The assembler reads back the number that the disassembler writes (R83, R91). -/
theorem parseLiteral_decimal (n : Nat) : parseLiteral (decimal n) = some (n : Int) := by
  obtain ⟨ds, nonempty, text, value⟩ := decimal_eq_digitText n
  exact (parseLiteral_eq_some_iff _ _).mpr ⟨ds, nonempty, .inl ⟨text, congrArg _ value⟩⟩

theorem decimal_ne_nil (n : Nat) : decimal n ≠ [] :=
  Nat.toDigits_ne_nil

/-- A digit is no white space, begins no comment and ends no token. -/
theorem digitChar_plain (d : Fin 10) :
    isSpace (Nat.digitChar d) = false ∧ Nat.digitChar d ≠ ';' ∧ Nat.digitChar d ≠ ',' := by
  revert d
  decide

theorem plain_of_mem_decimal {n : Nat} {ch : Char} (h : ch ∈ decimal n) : isSpace ch = false ∧ ch ≠ ';' ∧ ch ≠ ',' := by
  obtain ⟨ds, _, text, _⟩ := decimal_eq_digitText n
  rw [text] at h
  obtain ⟨d, _, rfl⟩ : ∃ d ∈ ds, Nat.digitChar d = ch := by simpa [digitText] using h
  exact digitChar_plain d

/-! ### The assembler's reading of a line -/

/-- Trimming keeps a text that neither begins nor ends with white space. -/
theorem trim_eq_self {t : Text} (hfirst : ∀ ch ∈ t.head?, isSpace ch = false) (hlast : ∀ ch ∈ t.getLast?, isSpace ch = false) :
    trim t = t := by
  have front : t.dropWhile isSpace = t := by
    cases t with
    | nil => rfl
    | cons ch rest => exact List.dropWhile_cons_of_neg (by simp [hfirst ch rfl])
  have back : t.rdropWhile isSpace = t :=
    List.rdropWhile_eq_self_iff.mpr fun hne => by simp [hlast _ (List.getLast?_eq_some_getLast hne)]
  rw [trim, front]
  exact back

theorem trim_space_cons (t : Text) : trim (' ' :: t) = trim t := rfl

/-- Preprocessing keeps a text that has no comment and that trimming keeps (R80). -/
theorem preprocess_eq_self {t : Text} (hcomment : ';' ∉ t) (htrim : trim t = t) : preprocess t = t := by
  have whole : t.takeWhile (· != ';') = t := by
    rw [List.takeWhile_eq_self_iff]
    intro ch hch
    exact bne_iff_ne.mpr fun heq => hcomment (heq ▸ hch)
  rw [preprocess, whole, htrim]

/-- A text with no comma is one token (R82). -/
theorem splitCommas_of_not_mem {t : Text} (h : ',' ∉ t) : splitCommas t = [t] := by
  induction t with
  | nil => rfl
  | cons ch rest ih =>
    obtain ⟨hch, hrest⟩ := List.ne_and_not_mem_of_not_mem_cons h
    rw [splitCommas, if_neg (Ne.symm hch), ih hrest]

/-- A line with a mnemonic assembles to what its operands do (R82). -/
theorem assembleLine_of_recognise {line operands : Text} {m : Mnemonic}
    (h : recognise mnemonicList (preprocess line) = some (m, operands)) :
    assembleLine line = (assembleOperands m (operandTokens operands)).map some := by
  cases hline : preprocess line with
  | nil => rw [hline] at h; cases h
  | cons ch rest =>
    rw [hline] at h
    simp only [assembleLine, hline, h]
    cases assembleOperands m (operandTokens operands) <;> rfl

/-! ### MOVI's source line -/

theorem trim_decimal (n : Nat) : trim (decimal n) = decimal n :=
  trim_eq_self (fun _ h => (plain_of_mem_decimal (List.mem_of_mem_head? h)).1)
    (fun _ h => (plain_of_mem_decimal (List.mem_of_mem_getLast? h)).1)

theorem preprocess_moviLine (n : Nat) : preprocess ("MOVI ".toList ++ decimal n) = "MOVI ".toList ++ decimal n := by
  apply preprocess_eq_self
  · intro h
    rcases List.mem_append.mp h with h | h
    · exact absurd h (by decide)
    · exact (plain_of_mem_decimal h).2.1 rfl
  · apply trim_eq_self
    · rintro _ ⟨⟩
      rfl
    · rw [List.getLast?_append_of_ne_nil _ (decimal_ne_nil n)]
      exact fun _ h => (plain_of_mem_decimal (List.mem_of_mem_getLast? h)).1

theorem recognise_moviLine (operands : Text) :
    recognise mnemonicList ("MOVI ".toList ++ operands) = some (.movi, ' ' :: operands) := rfl

theorem operandTokens_space_decimal (n : Nat) : operandTokens (' ' :: decimal n) = [decimal n] := by
  have one : ',' ∉ ' ' :: decimal n :=
    List.not_mem_cons_of_ne_of_not_mem (by decide) fun h => (plain_of_mem_decimal h).2.2 rfl
  rw [operandTokens, splitCommas_of_not_mem one, List.map_singleton, trim_space_cons, trim_decimal]

theorem assembleMovi_decimal (v : BitVec 7) : assembleMovi [decimal v.toNat] = .ok (moviByte v) := by
  simp only [assembleMovi, parseLiteral_decimal, encodeMovi_toNat]

theorem assembleLine_movi (v : BitVec 7) :
    assembleLine ("MOVI ".toList ++ decimal v.toNat) = .ok (some (moviByte v)) := by
  have hrec := recognise_moviLine (decimal v.toNat)
  rw [← preprocess_moviLine] at hrec
  rw [assembleLine_of_recognise hrec, operandTokens_space_decimal, assembleOperands, assembleMovi_decimal]
  rfl

/-! ### MOVI's effect -/

theorem exec_movi (v : BitVec 7) (s : State) : exec (.movi v) s = .next ((s.setReg .a (zext8 v)).advance) := rfl

/-- Settles O16: the byte by the layout bit, the text by the assembler's reading of a decimal numeral, the effect by the
zero-extended write to `a`. -/
theorem moviWritesImmediate : Obligations.MoviWritesImmediate := by
  refine ⟨?byte, ?text, ?effect⟩
  case byte => exact fun _ _ hmask => decode_layoutA (bit7_of_mask_eq_zero hmask)
  case text => exact fun v => ⟨assembleLine_movi v, fun p => disassembleByte_moviByte p v⟩
  case effect =>
    intro v s
    refine ⟨_, exec_movi v s, ?_, ?_, completesWriting_setReg_advance .a (zext8 v) s⟩
    · rw [getReg_advance, getReg_setReg_self, toNat_zext8]
    · rw [getReg_advance, getReg_setReg_self, zext8_bit7]

end Sys2Proof.Machine
end

section
/-! PROOFS. ADD, SUB and MUL (spec/41_arithmetic.md R110 to R114): what the arithmetic instructions share (the masked
encoding, the source line, the completed write), for every ALU operation at once, then each operation's value. -/

namespace Sys2Proof.Machine

/-! ### The byte -/

/-- The mask 0xF0 selects the high nibble (R65). -/
theorem highNibble_of_mask {b m : Byte} (h : b &&& 0xF0#8 = m) : b.extractLsb' 4 4 = m.extractLsb' 4 4 := by
  have hmask : (0xF0#8 : Byte).extractLsb' 4 4 = BitVec.allOnes 4 := by decide
  rw [← h, BitVec.extractLsb'_and, hmask, BitVec.and_allOnes]

/-- The match of an operation is its byte with both operand fields 0, the code of `a` (R20, R65). -/
theorem decode_arith_of_mask (p : IoBit3Policy) {b : Byte} (op : AluOp) (h : b &&& 0xF0#8 = arithByte op .a .a) :
    decode p b = .instr (arithInstr op (Reg.ofCode (b.extractLsb' 2 2)) (Reg.ofCode (b.extractLsb' 0 2))) := by
  have hnibble : (arithByte op .a .a).extractLsb' 4 4 = 1#1 ++ op.opc := by cases op <;> decide
  exact decode_arith_of_highNibble p ((highNibble_of_mask h).trans hnibble)

theorem encode_arithInstr (op : AluOp) (r1 r2 : Reg) : encode (arithInstr op r1 r2) = some (arithByte op r1 r2) := by
  cases op <;> rfl

theorem decode_arithByte (p : IoBit3Policy) (op : AluOp) (r1 r2 : Reg) :
    decode p (arithByte op r1 r2) = .instr (arithInstr op r1 r2) := by
  cases op with
  | add => exact decode_addByte p r1 r2
  | sub => exact decode_subByte p r1 r2
  | mul => exact decode_mulByte p r1 r2
  | div => exact decode_divByte p r1 r2

/-! ### The source line -/

/-- The line of an arithmetic instruction as the disassembler writes it, `<OP> <r1>,<r2>` (R91). -/
def arithLine (op : AluOp) (r1 r2 : Reg) : Text := render (arithInstr op r1 r2)

theorem disassembleByte_arithByte (p : IoBit3Policy) (op : AluOp) (r1 r2 : Reg) :
    disassembleByte p (arithByte op r1 r2) = arithLine op r1 r2 := by
  rw [disassembleByte, decode_arithByte]
  rfl

/-- A register's letter is no white space and ends no token. -/
theorem letter_plain (r : Reg) : isSpace r.letter = false ∧ r.letter ≠ ';' ∧ r.letter ≠ ',' := by
  cases r <;> decide

theorem trim_letter (r : Reg) : trim [r.letter] = [r.letter] := by
  obtain ⟨hspace, _, _⟩ := letter_plain r
  exact trim_eq_self (by simpa using hspace) (by simpa using hspace)

/-- The line begins with its mnemonic's letters and a space, all of them before the operands. -/
theorem arithLine_eq_append (op : AluOp) (r1 r2 : Reg) :
    ∃ first name, arithLine op r1 r2 = first :: name ++ [r1.letter, ',', r2.letter] ∧
      isSpace first = false ∧ ';' ∉ first :: name := by
  cases op with
  | add => exact ⟨'A', ['D', 'D', ' '], rfl, by decide, by decide⟩
  | sub => exact ⟨'S', ['U', 'B', ' '], rfl, by decide, by decide⟩
  | mul => exact ⟨'M', ['U', 'L', ' '], rfl, by decide, by decide⟩
  | div => exact ⟨'D', ['I', 'V', ' '], rfl, by decide, by decide⟩

theorem preprocess_arithLine (op : AluOp) (r1 r2 : Reg) : preprocess (arithLine op r1 r2) = arithLine op r1 r2 := by
  obtain ⟨first, name, hline, hfirst, hname⟩ := arithLine_eq_append op r1 r2
  obtain ⟨_, hcomment1, _⟩ := letter_plain r1
  obtain ⟨hspace2, hcomment2, _⟩ := letter_plain r2
  have hoperands : ';' ∉ [r1.letter, ',', r2.letter] := by simp [hcomment1.symm, hcomment2.symm]
  rw [hline]
  apply preprocess_eq_self
  · exact fun h => (List.mem_append.mp h).elim hname hoperands
  · apply trim_eq_self
    · simpa using hfirst
    · rw [List.getLast?_append_of_ne_nil _ (List.cons_ne_nil _ _)]
      simpa using hspace2

theorem recognise_arithLine (op : AluOp) (r1 r2 : Reg) :
    recognise mnemonicList (arithLine op r1 r2) = some (.arith op, [' ', r1.letter, ',', r2.letter]) := by
  cases op <;> rfl

/-- A comma ends the token before it (R82). -/
theorem splitCommas_append_comma {t : Text} (h : ',' ∉ t) (rest : Text) :
    splitCommas (t ++ ',' :: rest) = t :: splitCommas rest := by
  induction t with
  | nil => rfl
  | cons ch t ih =>
    obtain ⟨hch, ht⟩ := List.ne_and_not_mem_of_not_mem_cons h
    rw [List.cons_append, splitCommas, if_neg hch.symm, ih ht]

theorem operandTokens_registers (r1 r2 : Reg) :
    operandTokens [' ', r1.letter, ',', r2.letter] = [[r1.letter], [r2.letter]] := by
  obtain ⟨_, _, hcomma1⟩ := letter_plain r1
  obtain ⟨_, _, hcomma2⟩ := letter_plain r2
  have hsplit : splitCommas ([' ', r1.letter] ++ [',', r2.letter]) = [[' ', r1.letter], [r2.letter]] := by
    rw [splitCommas_append_comma (by simp [hcomma1.symm]), splitCommas_of_not_mem (by simp [hcomma2.symm])]
  calc operandTokens ([' ', r1.letter] ++ [',', r2.letter])
      = [trim [' ', r1.letter], trim [r2.letter]] := by rw [operandTokens, hsplit]; rfl
    _ = [[r1.letter], [r2.letter]] := by rw [trim_space_cons, trim_letter, trim_letter]

theorem assembleArith_letters (op : AluOp) (r1 r2 : Reg) :
    assembleArith op [[r1.letter], [r2.letter]] = .ok (arithByte op r1 r2) := by
  simp only [assembleArith, List.head?_cons, encodeArithmetic_letters]

theorem assembleLine_arithLine (op : AluOp) (r1 r2 : Reg) :
    assembleLine (arithLine op r1 r2) = .ok (some (arithByte op r1 r2)) := by
  have hrec := recognise_arithLine op r1 r2
  rw [← preprocess_arithLine] at hrec
  rw [assembleLine_of_recognise hrec, operandTokens_registers, assembleOperands, assembleArith_letters]
  rfl

/-- One byte for the instruction, its source line and its disassembly (R74, R84, R91). -/
theorem arith_byte_and_line (op : AluOp) (r1 r2 : Reg) :
    ∃ b, encode (arithInstr op r1 r2) = some b ∧ assembleLine (arithLine op r1 r2) = .ok (some b) ∧
      ∀ p, disassembleByte p b = arithLine op r1 r2 :=
  ⟨arithByte op r1 r2, encode_arithInstr op r1 r2, assembleLine_arithLine op r1 r2,
    fun p => disassembleByte_arithByte p op r1 r2⟩

/-! ### The effect -/

theorem exec_arithInstr (op : AluOp) (r1 r2 : Reg) (s : State) : exec (arithInstr op r1 r2) s = aluInstr op r1 r2 s := by
  cases op <;> rfl

/-- Where the ALU has a value of the two old register values, the instruction completes by writing it to r1 (R111). -/
theorem exec_arithInstr_of_aluY {op : AluOp} {r1 r2 : Reg} {s : State} {y : Byte}
    (h : aluY op (s.getReg r1) (s.getReg r2) = some y) :
    ∃ t, exec (arithInstr op r1 r2) s = .next t ∧ t.getReg r1 = y ∧ CompletesWriting r1 s t := by
  refine ⟨(s.setReg r1 y).advance, ?_, ?_, completesWriting_setReg_advance r1 y s⟩
  · simp only [exec_arithInstr, aluInstr, h]
  · rw [getReg_advance, getReg_setReg_self]

/-- The result and the frame in the form of R112 to R114, the value as a number. -/
theorem exec_arithInstr_toNat (op : AluOp) {r1 r2 : Reg} {s : State} {y : Byte} {n : Nat}
    (hy : aluY op (s.getReg r1) (s.getReg r2) = some y) (hn : y.toNat = n) :
    ∃ t, exec (arithInstr op r1 r2) s = .next t ∧ (t.getReg r1).toNat = n ∧ CompletesWriting r1 s t := by
  obtain ⟨t, hexec, hvalue, hframe⟩ := exec_arithInstr_of_aluY hy
  exact ⟨t, hexec, hvalue ▸ hn, hframe⟩

/-- The difference of two bytes, with the wrap as R113's two cases. -/
theorem toNat_sub_byte (x y : Byte) :
    (x - y).toNat = if y.toNat ≤ x.toNat then x.toNat - y.toNat else x.toNat + 256 - y.toNat := by
  have hx := x.isLt
  have hy := y.isLt
  rw [BitVec.toNat_sub]
  split <;> omega

/-! ### The instructions -/

/-- Settles O17: the arithmetic encoding, line and completed write at ADD, with the sum of bytes. -/
theorem addWrapsModulo256 : Obligations.AddWrapsModulo256 := by
  refine ⟨?byte, ?text, ?effect⟩
  case byte => exact fun p _ hmask => decode_arith_of_mask p .add hmask
  case text => exact arith_byte_and_line .add
  case effect => exact fun _ _ _ => exec_arithInstr_toNat .add (aluY_add _ _) (BitVec.toNat_add _ _)

/-- Settles O18: the arithmetic encoding, line and completed write at SUB, with the difference of bytes. -/
theorem subWrapsModulo256 : Obligations.SubWrapsModulo256 := by
  refine ⟨?byte, ?text, ?effect⟩
  case byte => exact fun p _ hmask => decode_arith_of_mask p .sub hmask
  case text => exact arith_byte_and_line .sub
  case effect => exact fun _ _ _ => exec_arithInstr_toNat .sub (aluY_sub _ _) (toNat_sub_byte _ _)

/-- Settles O19: the arithmetic encoding, line and completed write at MUL, with the low byte of the product. -/
theorem mulKeepsLowByte : Obligations.MulKeepsLowByte := by
  refine ⟨?byte, ?text, ?effect⟩
  case byte => exact fun p _ hmask => decode_arith_of_mask p .mul hmask
  case text => exact arith_byte_and_line .mul
  case effect => exact fun _ _ _ => exec_arithInstr_toNat .mul (aluY_mul _ _) (BitVec.toNat_mul _ _)

end Sys2Proof.Machine
end

section
/-! PROOFS. The value IN stores (spec/42_io.md R144): the clamp of a parse result as a number, with its bound, for every answer
the host's parser can give. -/

namespace Sys2Proof.Machine

/-- The two cases of R144 in one equation of integers. -/
theorem toNat_clampInput_some (n : Int) : ((clampInput (some n)).toNat : Int) = if 0 ≤ n ∧ n ≤ 127 then n else 0 := by
  split
  case isTrue hin => rw [clampInput_in n hin.1 hin.2, Int.toNat_of_nonneg hin.1]
  case isFalse hout => rw [clampInput_out n hout]; rfl

theorem toNat_clampInput_le (answer : Option Int) : (clampInput answer).toNat ≤ 127 := by
  cases answer with
  | none => exact Nat.zero_le 127
  | some n =>
    have hvalue := toNat_clampInput_some n
    split at hvalue <;> omega

/-- Settles O27: a line's value is the clamp of the parser's answer, whatever that answer is. -/
theorem inputValueClampsToZero : Obligations.InputValueClampsToZero := by
  intro line
  refine ⟨?value, toNat_clampInput_le _⟩
  case value =>
    unfold inValue
    cases Config.parseInt line with
    | none => rfl
    | some n => exact toNat_clampInput_some n

end Sys2Proof.Machine
end

section
/-! PROOFS. The codec laws (spec/30_encoding.md R75) and the population of the byte space (R76), with the opcode map of layout B
and the IO format read off the decoder's equations (R64, R66, R69). -/

namespace Sys2Proof.Machine

/-! ### Decoding an encoded byte -/

theorem encode_isSome (i : Instr) : (encode i).isSome = i.wellFormed := by
  cases i <;> rfl

/-- The first law of R75, under either policy. -/
theorem decode_of_encode {i : Instr} {b : Byte} (h : encode i = some b) (p : IoBit3Policy) : decode p b = .instr i := by
  cases i with
  | movi v => cases h; exact decode_moviByte p v
  | add r1 r2 => cases h; exact decode_addByte p r1 r2
  | sub r1 r2 => cases h; exact decode_subByte p r1 r2
  | mul r1 r2 => cases h; exact decode_mulByte p r1 r2
  | div r1 r2 => cases h; exact decode_divByte p r1 r2
  | inp tr => cases h; exact decode_inByte p tr
  | out tr => cases h; exact decode_outByte p tr
  | reserved5 | reserved6 | reserved7 => cases h

/-- An encoded byte has one instruction: the one that it decodes to. -/
theorem encode_injective {i j : Instr} {b : Byte} (hi : encode i = some b) (hj : encode j = some b) : j = i :=
  Decoded.instr.inj ((decode_of_encode hj .ignore).symm.trans (decode_of_encode hi .ignore))

/-- Settles O10: the encoder has a byte for every representable instruction, the decoder inverts it, and so no two instructions
share a byte. -/
theorem decodeInvertsEncode : Obligations.DecodeInvertsEncode := by
  intro i hwf
  obtain ⟨b, hb⟩ := Option.isSome_iff_exists.mp ((encode_isSome i).trans hwf)
  exact ⟨b, hb, decode_of_encode hb, fun j _ hj => encode_injective hb hj⟩

/-! ### Encoding a decoded byte -/

/-- The byte that R75's converse comes back with: bit 3 of an IO byte is cleared. -/
def clearIoBit3 (b : Byte) : Byte := if b.extractLsb' 3 5 = 0b11001#5 then b - 8#8 else b

/-- The bytes 11001xxx are 0xC8 to 0xCF. -/
theorem ioBit3_iff_toNat (b : Byte) : b.extractLsb' 3 5 = 0b11001#5 ↔ 0xC8 ≤ b.toNat ∧ b.toNat ≤ 0xCF := by
  have hb := b.isLt
  rw [← BitVec.toNat_inj, toNat_bitRange, BitVec.toNat_ofNat]
  omega

theorem toNat_clearIoBit3 (b : Byte) :
    (clearIoBit3 b).toNat = if 0xC8 ≤ b.toNat ∧ b.toNat ≤ 0xCF then b.toNat - 8 else b.toNat := by
  have hb := b.isLt
  rw [clearIoBit3, apply_ite BitVec.toNat, BitVec.toNat_sub, BitVec.toNat_ofNat]
  simp only [ioBit3_iff_toNat]
  split <;> omega

theorem moviByte_of_layoutA {b : Byte} (hbit7 : b.getLsbD 7 = false) : moviByte (b.extractLsb' 0 7) = clearIoBit3 b := by
  have hb := b.isLt
  rw [← Bool.not_eq_true, getLsbD_iff_toNat] at hbit7
  rw [← BitVec.toNat_inj, toNat_moviByte, toNat_clearIoBit3, toNat_bitRange, if_neg (by omega)]
  omega

theorem arithByte_of_opcode {b : Byte} {op : AluOp} (hbit7 : b.getLsbD 7 = true) (hopc : b.extractLsb' 4 3 = op.opc) :
    arithByte op (Reg.ofCode (b.extractLsb' 2 2)) (Reg.ofCode (b.extractLsb' 0 2)) = clearIoBit3 b := by
  have hb := b.isLt
  have hop : op.opc.toNat < 4 := by cases op <;> decide
  rw [getLsbD_iff_toNat] at hbit7
  rw [← BitVec.toNat_inj, toNat_arithByte, toNat_clearIoBit3, ← hopc, Reg.code_ofCode, Reg.code_ofCode]
  rw [← hopc] at hop
  rw [toNat_bitRange] at hop ⊢
  rw [toNat_bitRange, toNat_bitRange, if_neg (by omega)]
  omega

theorem ioByte_of_opcode {b : Byte} {dir : Dir} (hbit7 : b.getLsbD 7 = true) (hopc : b.extractLsb' 4 3 = 4#3)
    (hdir : b.extractLsb' 2 1 = dir.bit) : ioByte dir (Reg.ofCode (b.extractLsb' 0 2)) = clearIoBit3 b := by
  have hb := b.isLt
  rw [getLsbD_iff_toNat] at hbit7
  rw [← BitVec.toNat_inj, toNat_bitRange, BitVec.toNat_ofNat] at hopc
  rw [← BitVec.toNat_inj, toNat_ioByte, toNat_clearIoBit3, ← hdir, Reg.code_ofCode, toNat_bitRange, toNat_bitRange]
  split <;> omega

/-- The unknown verdicts on the table's rows are those of the instructions that no encoder writes (R71, R74). -/
theorem not_wellFormed_iff_unknown (i : Instr) : i.wellFormed = false ↔ (unknownOpcodeOf (.instr i)).isSome = true := by
  cases i <;> simp [Instr.wellFormed, unknownOpcodeOf]

/-- The converse law of R75. -/
theorem encode_of_decode {p : IoBit3Policy} {b : Byte} {i : Instr} (h : decode p b = .instr i) (hwf : i.wellFormed = true) :
    encode i = some (clearIoBit3 b) := by
  cases hbit7 : b.getLsbD 7 with
  | false =>
    rw [decode_layoutA hbit7] at h
    cases h
    exact congrArg some (moviByte_of_layoutA hbit7)
  | true =>
    have hverdict := decode_verdict p hbit7
    rw [h] at hverdict
    cases hverdict with
    | arith op hopc => rw [encode_arithInstr, arithByte_of_opcode hbit7 hopc]
    | inp hopc _ hdir => exact congrArg some (ioByte_of_opcode hbit7 hopc ((bitField_eq_zero_iff b 2).mpr hdir))
    | out hopc _ hdir => exact congrArg some (ioByte_of_opcode hbit7 hopc ((bitField_eq_one_iff b 2).mpr hdir))
    | reserved5 | reserved6 | reserved7 => cases hwf

/-- Settles O11: the converse law at each verdict that is an instruction. -/
theorem encodeInvertsDecode : Obligations.EncodeInvertsDecode := by
  intro p b
  split
  next => trivial
  next i hd => exact ⟨not_wellFormed_iff_unknown i, encode_of_decode hd⟩

/-! ### Bytes and opcodes -/

/-- Settles O1: seven of the bytes are those of the encoders, and the others have a reserved opcode. -/
theorem sampleWordsDecode : Obligations.SampleWordsDecode := by
  intro p
  exact ⟨decode_moviByte p 127#7, decode_addByte p .d .c, decode_subByte p .c .d, decode_mulByte p .b .b,
    decode_divByte p .b .a, decode_inByte p .b, decode_outByte p .c,
    (decode_layoutB (by decide)).trans (decodeLayoutB_reserved5 (by decide)),
    (decode_layoutB (by decide)).trans (decodeLayoutB_reserved6 (by decide)),
    (decode_layoutB (by decide)).trans (decodeLayoutB_reserved7 (by decide))⟩

/-- Opcode 4 (R64, R66, R69). -/
theorem decode_opcode4_cases (p : IoBit3Policy) {b : Byte} (hbit7 : b.getLsbD 7 = true) (hopc : b.extractLsb' 4 3 = 4#3) :
    (∃ tr, decode p b = .instr (.inp tr)) ∨ (∃ tr, decode p b = .instr (.out tr)) ∨
      (p = .unknown ∧ b.getLsbD 3 = true ∧ decode p b = .unknown4) := by
  rw [decode_layoutB hbit7, decodeLayoutB_io hopc]
  by_cases hunknown : b.getLsbD 3 = true ∧ p = .unknown
  · obtain ⟨hbit3, hpolicy⟩ := hunknown
    exact .inr (.inr ⟨hpolicy, hbit3, decodeIo_unknown hbit3 hpolicy⟩)
  · rw [decodeIo_defined hunknown]
    cases b.getLsbD 2 with
    | false => exact .inl ⟨_, rfl⟩
    | true => exact .inr (.inl ⟨_, rfl⟩)

/-- Settles O5: the decoder's equation at each of the eight opcodes. -/
theorem opcodeMapOfLayoutB : Obligations.OpcodeMapOfLayoutB := by
  intro p b hbit7
  have hlayoutB := decode_layoutB (p := p) hbit7
  have arith {op : AluOp} (hopc : b.extractLsb' 4 3 = op.opc) : ∃ r1 r2, decode p b = .instr (arithInstr op r1 r2) :=
    ⟨_, _, hlayoutB.trans (decodeLayoutB_arith hopc)⟩
  exact ⟨arith (op := .add), arith (op := .sub), arith (op := .mul), arith (op := .div), decode_opcode4_cases p hbit7,
    fun hopc => hlayoutB.trans (decodeLayoutB_reserved5 hopc), fun hopc => hlayoutB.trans (decodeLayoutB_reserved6 hopc),
    fun hopc => hlayoutB.trans (decodeLayoutB_reserved7 hopc)⟩

/-- The high nibble of IN and OUT (R66). -/
theorem decode_of_ioNibble (p : IoBit3Policy) {b : Byte} (h : b.extractLsb' 4 4 = 0b1100#4) : decode p b = decodeIo p b := by
  obtain ⟨hbit7, hopc⟩ := layoutB_opcode_of_highNibble (k := 4#3) h
  rw [decode_layoutB hbit7, decodeLayoutB_io hopc]

/-- Settles O7: the decoder's two equations for an IO byte. -/
theorem ioFormatUnderBothPolicies : Obligations.IoFormatUnderBothPolicies := by
  intro b hnibble
  refine ⟨fun p hdefined => ?defined, fun hbit3 => ?unknown⟩
  case defined =>
    rw [decode_of_ioNibble p hnibble, decodeIo_defined]
    rintro ⟨hbit3, hunknown⟩
    rcases hdefined with hclear | hignore
    · cases hbit3.symm.trans hclear
    · cases hunknown.symm.trans hignore
  case unknown => rw [decode_of_ioNibble _ hnibble, decodeIo_unknown hbit3 rfl]

/-! ### The population of the byte space -/

/-- The table of R76 as runs of equal classes, byte 0 first: layout A, the arithmetic opcodes, opcode 4 with bit 3 clear
and set, and the reserved opcodes. -/
def classTable (p : IoBit3Policy) : List String :=
  List.replicate 128 "MOVI" ++ List.replicate 16 "ADD" ++ List.replicate 16 "SUB" ++ List.replicate 16 "MUL" ++
    List.replicate 16 "DIV" ++ List.replicate 4 "IN" ++ List.replicate 4 "OUT" ++
    (match p with
      | .ignore => List.replicate 4 "IN" ++ List.replicate 4 "OUT"
      | .unknown => List.replicate 8 "Unknown") ++
    List.replicate 48 "Unknown"

/-- Evaluated once for each policy, byte by byte. -/
theorem map_classOf_eq_classTable (p : IoBit3Policy) :
    (List.range 256).map (fun n => classOf (decode p (BitVec.ofNat 8 n))) = classTable p := by
  cases p <;> decide +kernel

theorem population_eq_count (p : IoBit3Policy) (name : String) : population p name = (classTable p).count name := by
  rw [← map_classOf_eq_classTable, List.count, List.countP_map]
  rfl

/-- Settles O9: each class is counted in the table. -/
theorem bytePopulation : Obligations.BytePopulation := by
  simp only [Obligations.BytePopulation, population_eq_count, classTable, List.count_append, List.count_replicate]
  refine ⟨fun p => ?_, by decide⟩
  cases p <;> simp only [List.count_append, List.count_replicate] <;> decide

end Sys2Proof.Machine
end

section
/-! PROOFS. The blocks as hardware (spec/92_eei_decisions.md D1): the decoder's outputs (30_encoding.md R73) against the decoder's
verdict, and the datapath against the step, one class of instruction at a time (10_state.md R22, 41_arithmetic.md R110). -/

namespace Sys2Proof.Machine

/-- The high nibble is the layout bit and the opcode (R61, R64). -/
theorem highNibble_eq_append (b : Byte) : b.extractLsb' 4 4 = b.extractLsb' 7 1 ++ b.extractLsb' 4 3 := by
  rw [← BitVec.toNat_inj, toNat_append_eq_add, toNat_bitRange, toNat_bitRange, toNat_bitRange]
  omega

/-- A bit range of a bit range. -/
theorem bitRange_bitRange (b : Byte) {i n j m : Nat} (h : j + m ≤ n) :
    (b.extractLsb' i n).extractLsb' j m = b.extractLsb' (i + j) m := by
  apply BitVec.eq_of_getLsbD_eq
  intro k hk
  simp [hk, show j + k < n by omega, Nat.add_assoc]

/-- The bits that select an operation of the ALU are those of its opcode (R64, R73). -/
theorem aluOp_of_opcode {b : Byte} {op : AluOp} (hopc : b.extractLsb' 4 3 = op.opc) :
    AluOp.ofBits (b.extractLsb' 4 2) = op := by
  rw [← bitRange_bitRange b (n := 3) (j := 0) (by decide), hopc]
  cases op <;> rfl

/-! ### The class outputs of the decoder -/

/-- The five class outputs (R73): is_movi, is_alu, is_in, is_out and is_unknown. -/
def classOutputs (d : DecoderOut) : List Bool := [d.isMovi, d.isAlu, d.isIn, d.isOut, d.isUnknown]

theorem classOutputs_eq_iff {d : DecoderOut} {movi alu inp out unknown : Bool} :
    classOutputs d = [movi, alu, inp, out, unknown] ↔
      d.isMovi = movi ∧ d.isAlu = alu ∧ d.isIn = inp ∧ d.isOut = out ∧ d.isUnknown = unknown := by
  simp [classOutputs]

/-- The class outputs that R73 gives for a verdict of the decoder. -/
def classBits : Decoded → List Bool
  | .instr (.movi _) => [true, false, false, false, false]
  | .instr (.add _ _) | .instr (.sub _ _) | .instr (.mul _ _) | .instr (.div _ _) => [false, true, false, false, false]
  | .instr (.inp _) => [false, false, true, false, false]
  | .instr (.out _) => [false, false, false, true, false]
  | .instr .reserved5 | .instr .reserved6 | .instr .reserved7 | .unknown4 => [false, false, false, false, true]

/-- The class outputs as a function of the high nibble, the direction bit, and whether the reserved bit makes the byte
unknown; `classOutputs_eq_nibbleClass` ties it to the decoder block. -/
def nibbleClass (nibble : BitVec 4) (dir rsvdUnknown : Bool) : List Bool :=
  [!nibble.getLsbD 3, nibble.extractLsb' 2 2 == 2#2, nibble == 0xC#4 && !dir && !rsvdUnknown,
    nibble == 0xC#4 && dir && !rsvdUnknown,
    nibble == 0xD#4 || nibble == 0xE#4 || nibble == 0xF#4 || (nibble == 0xC#4 && rsvdUnknown)]

theorem classOutputs_eq_nibbleClass (p : IoBit3Policy) (b : Byte) :
    classOutputs (decoderOut p b) =
      nibbleClass (b.extractLsb' 7 1 ++ b.extractLsb' 4 3) (b.getLsbD 2) (b.getLsbD 3 && decide (p = .unknown)) := by
  have hbit7 : (b.extractLsb' 4 4).getLsbD 3 = b.getLsbD 7 := by simp
  have halu : (b.extractLsb' 4 4).extractLsb' 2 2 = b.extractLsb' 6 2 := bitRange_bitRange b (by decide)
  simp only [classOutputs, decoderOut, nibbleClass, ← highNibble_eq_append, hbit7, halu]

theorem nibbleClass_layoutA (opc : BitVec 3) (dir rsvdUnknown : Bool) :
    nibbleClass (0#1 ++ opc) dir rsvdUnknown = [true, false, false, false, false] := by
  revert opc dir rsvdUnknown
  decide

theorem rsvdUnknown_of_defined {p : IoBit3Policy} {b : Byte} (h : ¬ (b.getLsbD 3 = true ∧ p = .unknown)) :
    (b.getLsbD 3 && decide (p = .unknown)) = false := by
  rwa [← Bool.not_eq_true, Bool.and_eq_true, decide_eq_true_iff]

/-- The class outputs are those of the decoder's verdict. -/
theorem classOutputs_decoderOut (p : IoBit3Policy) (b : Byte) : classOutputs (decoderOut p b) = classBits (decode p b) := by
  rw [classOutputs_eq_nibbleClass]
  cases hbit7 : b.getLsbD 7 with
  | false =>
    rw [decode_layoutA hbit7, (bitField_eq_zero_iff b 7).mpr hbit7]
    exact nibbleClass_layoutA _ _ _
  | true =>
    have hverdict := decode_verdict p hbit7
    generalize decode p b = d at hverdict
    rw [(bitField_eq_one_iff b 7).mpr hbit7]
    cases hverdict with
    | arith op hopc => rw [hopc]; cases op <;> rfl
    | inp hopc hdefined hdir => rw [hopc, hdir, rsvdUnknown_of_defined hdefined]; rfl
    | out hopc hdefined hdir => rw [hopc, hdir, rsvdUnknown_of_defined hdefined]; rfl
    | unknown4 hopc hbit3 hpolicy => rw [hopc, hbit3, decide_eq_true hpolicy]; cases b.getLsbD 2 <;> rfl
    | reserved5 hopc | reserved6 hopc | reserved7 hopc => rw [hopc]; rfl

theorem classBits_count (d : Decoded) : (classBits d).count true = 1 := by
  cases d with
  | unknown4 => rfl
  | instr i => cases i <;> rfl

theorem classBits_arithInstr (op : AluOp) (r1 r2 : Reg) :
    classBits (.instr (arithInstr op r1 r2)) = [false, true, false, false, false] := by
  cases op <;> rfl

/-- Settles O13: the class outputs by `classOutputs_decoderOut`, the operands as the bit ranges they are read from. -/
theorem decoderOutputsAgree : Obligations.DecoderOutputsAgree := by
  intro p b
  have hclass := classOutputs_decoderOut p b
  refine ⟨(congrArg (List.count true) hclass).trans (classBits_count _), ?_⟩
  cases hbit7 : b.getLsbD 7 with
  | false =>
    rw [decode_layoutA hbit7] at hclass ⊢
    obtain ⟨hmovi, _⟩ := classOutputs_eq_iff.mp hclass
    exact ⟨hmovi, rfl, (bitField_eq_zero_iff b 7).mpr hbit7⟩
  | true =>
    have hverdict := decode_verdict p hbit7
    generalize decode p b = d at hverdict hclass ⊢
    cases hverdict with
    | arith op hopc =>
      rw [classBits_arithInstr] at hclass
      obtain ⟨_, halu, _⟩ := classOutputs_eq_iff.mp hclass
      cases op <;> exact ⟨halu, aluOp_of_opcode hopc, Reg.code_ofCode _, Reg.code_ofCode _⟩
    | inp _ _ hdir =>
      obtain ⟨_, _, hin, _⟩ := classOutputs_eq_iff.mp hclass
      exact ⟨hin, Reg.code_ofCode _, (bitField_eq_zero_iff b 2).mpr hdir⟩
    | out _ _ hdir =>
      obtain ⟨_, _, _, hout, _⟩ := classOutputs_eq_iff.mp hclass
      exact ⟨hout, Reg.code_ofCode _, (bitField_eq_one_iff b 2).mpr hdir⟩
    | unknown4 hopc | reserved5 hopc | reserved6 hopc | reserved7 hopc =>
      obtain ⟨_, _, _, _, hunknown⟩ := classOutputs_eq_iff.mp hclass
      exact ⟨hunknown, congrArg some hopc.symm⟩

/-! ### The datapath, class by class -/

section
variable {s : State} {b : Byte}

theorem datapath_movi (h : classOutputs (decoderOut s.policy b) = [true, false, false, false, false]) :
    datapath b s = (s.setReg .a (zext8 (b.extractLsb' 0 7))).advance := by
  obtain ⟨hmovi, halu, hin, hout, hunknown⟩ := classOutputs_eq_iff.mp h
  simp only [datapath, hmovi, halu, hin, hout, hunknown, reduceIte]
  rfl

/-- `dz` is 1 exactly where `Y` has no value, which is where the fault is taken (R110, R115). -/
theorem aluBlock_eq (x y : Byte) (aluOp : BitVec 2) :
    aluBlock x y aluOp =
      { y := aluY (AluOp.ofBits aluOp) x y, dz := (aluY (AluOp.ofBits aluOp) x y).isNone } := by
  rw [aluBlock, AluOut.mk.injEq, Bool.eq_iff_iff, Option.isNone_iff_eq_none, aluY_eq_none]
  exact ⟨rfl, Iff.rfl⟩

theorem datapath_alu (h : classOutputs (decoderOut s.policy b) = [false, true, false, false, false]) :
    aluInstr (AluOp.ofBits (decoderOut s.policy b).aluOp) (Reg.ofCode (decoderOut s.policy b).r1)
      (Reg.ofCode (decoderOut s.policy b).r2) s = .next (datapath b s) := by
  obtain ⟨hmovi, halu, hin, hout, hunknown⟩ := classOutputs_eq_iff.mp h
  simp only [aluInstr, State.getReg, datapath, aluBlock_eq, Regs.port, hmovi, halu, hin, hout, hunknown]
  cases aluY _ _ _ <;> rfl

/-- IN by the oldest pending event: none holds it, the end of the stream is its fault, a line is written (R142). -/
theorem datapath_inp (h : classOutputs (decoderOut s.policy b) = [false, false, true, false, false]) :
    execInp (Reg.ofCode (b.extractLsb' 0 2)) s = .next (datapath b s) := by
  obtain ⟨hmovi, halu, hin, hout, hunknown⟩ := classOutputs_eq_iff.mp h
  rcases execInp_cases (Reg.ofCode (b.extractLsb' 0 2)) s with ⟨hnone, h⟩ | ⟨rest, hend, h⟩ | ⟨line, rest, hline, h⟩ <;>
    rw [h]
  · simp [datapath, hmovi, halu, hin, hout, hunknown, Regs.clock, hnone]
    rw [← hnone]
  · simp [datapath, hmovi, halu, hin, hunknown, Regs.clock, hend]
    rfl
  · simp [datapath, hmovi, halu, hin, hunknown, Regs.clock, hline]
    rfl

theorem datapath_out (h : classOutputs (decoderOut s.policy b) = [false, false, false, true, false]) :
    datapath b s = (s.outWrite (s.getReg (Reg.ofCode (b.extractLsb' 0 2)))).advance := by
  obtain ⟨hmovi, halu, hin, hout, hunknown⟩ := classOutputs_eq_iff.mp h
  simp only [datapath, hmovi, halu, hin, hout, hunknown]
  rfl

theorem datapath_unknown (h : classOutputs (decoderOut s.policy b) = [false, false, false, false, true]) :
    datapath b s = s.raise .unknownOpcode (some (b.extractLsb' 4 3)) := by
  obtain ⟨hmovi, halu, hin, hout, hunknown⟩ := classOutputs_eq_iff.mp h
  simp only [datapath, hmovi, halu, hin, hout, hunknown]
  rfl

end

/-- Each verdict's class outputs select the datapath's behaviour for it. -/
theorem step_eq_datapath {s : State} {b : Byte} (hrunning : s.status = .running) (hfetch : s.fetch = some b) :
    step s = .next (datapath b s) := by
  have hclass := classOutputs_decoderOut s.policy b
  rw [step_of_fetch hrunning hfetch]
  cases hbit7 : b.getLsbD 7 with
  | false =>
    rw [decode_layoutA hbit7] at hclass ⊢
    rw [datapath_movi hclass]
    rfl
  | true =>
    have hverdict := decode_verdict s.policy hbit7
    generalize decode s.policy b = d at hverdict hclass ⊢
    cases hverdict with
    | arith op hopc =>
      rw [classBits_arithInstr] at hclass
      rw [← datapath_alu hclass, ← aluOp_of_opcode hopc]
      exact exec_arithInstr _ _ _ s
    | inp => exact datapath_inp hclass
    | out => rw [datapath_out hclass]; rfl
    | unknown4 hopc | reserved5 hopc | reserved6 hopc | reserved7 hopc =>
      rw [datapath_unknown hclass, hopc]
      rfl

/-- Settles O14: the datapath realises each class of verdict, and the class outputs select it. -/
theorem datapathRealisesStep : Obligations.DatapathRealisesStep :=
  fun _ _ => step_eq_datapath

end Sys2Proof.Machine
end

section
/-! PROOFS. The ALU (spec/41_arithmetic.md R110, R116) and DIV (R115), with the fault of a zero divisor (60_exceptions.md R162),
and the instructions whose operands are one register (R111, 70_reset_and_hazards.md R196). -/

namespace Sys2Proof.Machine

/-- Settles O15: each operation is that of bytes, read as a number. -/
theorem aluComputesModulo256 : Obligations.AluComputesModulo256 := by
  intro x y
  refine ⟨⟨_, aluY_add x y, BitVec.toNat_add x y⟩, ⟨_, aluY_sub x y, toNat_sub_byte x y⟩,
    ⟨_, aluY_mul x y, BitVec.toNat_mul x y⟩, fun hy => ⟨_, aluY_div x y hy, BitVec.toNat_udiv, ?bound⟩, ?zero,
    fun op => aluDz_eq_true op y⟩
  case bound =>
    rw [BitVec.toNat_udiv]
    exact Nat.div_le_self _ _
  case zero =>
    rintro rfl
    exact aluY_div_zero x

/-! ### DIV -/

/-- Settles O20: the arithmetic encoding, line and completed write at DIV, with the quotient of bytes. -/
theorem divWritesQuotient : Obligations.DivWritesQuotient := by
  refine ⟨?byte, ?text, ?effect⟩
  case byte => exact fun p _ hmask => decode_arith_of_mask p .div hmask
  case text => exact arith_byte_and_line .div
  case effect => exact fun _ _ _ hne => exec_arithInstr_toNat .div (aluY_div _ _ hne) BitVec.toNat_udiv

/-- A fault that consumes no event (R162). -/
theorem takesFault_raise (reason : FaultReason) (opc : Option (BitVec 3)) (s : State) :
    TakesFault reason opc s (s.raise reason opc) :=
  ⟨rfl, rfl, fun _ => rfl, rfl, ⟨rfl, rfl⟩, fun _ => rfl, rfl, rfl⟩

theorem exec_div_zero {r1 r2 : Reg} {s : State} (h : s.getReg r2 = 0#8) :
    exec (.div r1 r2) s = .next (s.raise .divisionByZero none) := by
  change aluInstr .div r1 r2 s = _
  rw [aluInstr, h, aluY_div_zero]

/-- Settles O21: the ALU has no value at a zero divisor, so the fault is raised, with the frame of every fault. -/
theorem divByZeroTakesFault : Obligations.DivByZeroTakesFault :=
  fun _ _ s hzero => ⟨_, exec_div_zero hzero, takesFault_raise .divisionByZero none s⟩

/-! ### One register as both operands -/

theorem exec_sub_self (r : Reg) (s : State) : ∃ t, exec (.sub r r) s = .next t ∧ t.getReg r = 0#8 := by
  obtain ⟨t, hexec, hvalue, _⟩ := exec_arithInstr_of_aluY (aluY_sub (s.getReg r) (s.getReg r))
  exact ⟨t, hexec, hvalue.trans (BitVec.sub_self _)⟩

theorem exec_div_self {r : Reg} {s : State} (h : s.getReg r ≠ 0#8) :
    ∃ t, exec (.div r r) s = .next t ∧ t.getReg r = 1#8 ∧ t.fault = s.fault := by
  obtain ⟨t, hexec, hvalue, _, _, hfault, _⟩ := exec_arithInstr_of_aluY (aluY_div (s.getReg r) (s.getReg r) h)
  refine ⟨t, hexec, ?_, hfault⟩
  rw [hvalue, BitVec.udiv_self, if_neg (by simpa using h)]

/-- Settles O22: the value of each operation at two equal operands, both the old value of the register. -/
theorem sameRegisterUsesOldValue : Obligations.SameRegisterUsesOldValue := by
  intro r s
  refine ⟨?add, exec_sub_self r s, ?mul, exec_div_self, ?divZero⟩
  case add =>
    obtain ⟨t, hexec, hvalue, _⟩ := exec_arithInstr_toNat .add (aluY_add (s.getReg r) (s.getReg r)) (BitVec.toNat_add _ _)
    exact ⟨t, hexec, by rw [hvalue, two_mul]⟩
  case mul =>
    obtain ⟨t, hexec, hvalue, _⟩ := exec_arithInstr_toNat .mul (aluY_mul (s.getReg r) (s.getReg r)) (BitVec.toNat_mul _ _)
    exact ⟨t, hexec, by rw [hvalue, sq]⟩
  case divZero => exact fun hzero => ⟨_, exec_div_zero hzero, rfl, hzero⟩

end Sys2Proof.Machine
end

section
/-! PROOFS. IN and OUT (spec/42_io.md R140 to R143): OUT's byte and line, the IO source line, and what an IN does with a line, with
the end of the stream and with nothing delivered (10_state.md R33). -/

namespace Sys2Proof.Machine

/-! ### The byte -/

/-- The mask 0xFC of OUT selects the high nibble, bit 3 and bit 2 (R66). -/
theorem outFields_of_mask {b : Byte} (h : b &&& 0xFC#8 = 0xC4#8) :
    b.extractLsb' 4 4 = 0b1100#4 ∧ b.getLsbD 3 = false ∧ b.getLsbD 2 = true := by
  refine ⟨?nibble, by simpa using congrArg (·.getLsbD 3) h, by simpa using congrArg (·.getLsbD 2) h⟩
  case nibble =>
    have hmask : (0xFC#8 : Byte).extractLsb' 4 4 = BitVec.allOnes 4 := by decide
    have hnibble := congrArg (BitVec.extractLsb' 4 4) h
    rw [BitVec.extractLsb'_and, hmask, BitVec.and_allOnes] at hnibble
    exact hnibble

theorem decode_out_of_mask (p : IoBit3Policy) {b : Byte} (h : b &&& 0xFC#8 = 0xC4#8) :
    decode p b = .instr (.out (Reg.ofCode (b.extractLsb' 0 2))) := by
  obtain ⟨hnibble, hbit3, hbit2⟩ := outFields_of_mask h
  have hdefined : ¬ (b.getLsbD 3 = true ∧ p = .unknown) := fun ⟨hset, _⟩ => Bool.noConfusion (hbit3.symm.trans hset)
  rw [decode_of_ioNibble p hnibble, decodeIo_defined hdefined, if_pos hbit2]

/-- The IO instruction of a direction (R66). -/
def ioInstr : Dir → Reg → Instr
  | .input => .inp
  | .output => .out

theorem encode_ioInstr (dir : Dir) (r : Reg) : encode (ioInstr dir r) = some (ioByte dir r) := by
  cases dir <;> rfl

/-! ### The source line -/

/-- The line of an IO instruction as the disassembler writes it, `IN <r>` or `OUT <r>` (R91). -/
def ioLine (dir : Dir) (r : Reg) : Text := render (ioInstr dir r)

theorem disassembleByte_ioByte (p : IoBit3Policy) (dir : Dir) (r : Reg) : disassembleByte p (ioByte dir r) = ioLine dir r := by
  rw [disassembleByte, decode_of_encode (encode_ioInstr dir r)]
  rfl

theorem ioLine_eq_append (dir : Dir) (r : Reg) :
    ∃ first name, ioLine dir r = first :: name ++ [r.letter] ∧ isSpace first = false ∧ ';' ∉ first :: name := by
  cases dir with
  | input => exact ⟨'I', ['N', ' '], rfl, by decide, by decide⟩
  | output => exact ⟨'O', ['U', 'T', ' '], rfl, by decide, by decide⟩

theorem preprocess_ioLine (dir : Dir) (r : Reg) : preprocess (ioLine dir r) = ioLine dir r := by
  obtain ⟨first, name, hline, hfirst, hname⟩ := ioLine_eq_append dir r
  obtain ⟨hspace, hcomment, _⟩ := letter_plain r
  rw [hline]
  apply preprocess_eq_self
  · exact fun h => (List.mem_append.mp h).elim hname (by simp [hcomment.symm])
  · apply trim_eq_self
    · simpa using hfirst
    · rw [List.getLast?_append_of_ne_nil _ (List.cons_ne_nil _ _)]
      simpa using hspace

theorem recognise_ioLine (dir : Dir) (r : Reg) :
    recognise mnemonicList (ioLine dir r) = some (.io dir, [' ', r.letter]) := by
  cases dir <;> rfl

theorem operandTokens_register (r : Reg) : operandTokens [' ', r.letter] = [[r.letter]] := by
  obtain ⟨_, _, hcomma⟩ := letter_plain r
  have hone : ',' ∉ [' ', r.letter] := by simp [hcomma.symm]
  rw [operandTokens, splitCommas_of_not_mem hone, List.map_singleton, trim_space_cons, trim_letter]

theorem assembleLine_ioLine (dir : Dir) (r : Reg) : assembleLine (ioLine dir r) = .ok (some (ioByte dir r)) := by
  have hrec := recognise_ioLine dir r
  rw [← preprocess_ioLine] at hrec
  rw [assembleLine_of_recognise hrec, operandTokens_register, assembleOperands, assembleIo, encodeIo_letter]
  rfl

/-- One byte for the instruction, its source line and its disassembly (R74, R85, R91). -/
theorem io_byte_and_line (dir : Dir) (r : Reg) :
    ∃ b, encode (ioInstr dir r) = some b ∧ assembleLine (ioLine dir r) = .ok (some b) ∧
      ∀ p, disassembleByte p b = ioLine dir r :=
  ⟨ioByte dir r, encode_ioInstr dir r, assembleLine_ioLine dir r, fun p => disassembleByte_ioByte p dir r⟩

/-! ### OUT -/

/-- Settles O26: the masked encoding, the IO line at OUT, and the emission with its frame. -/
theorem outEmitsRegister : Obligations.OutEmitsRegister := by
  refine ⟨fun p _ => decode_out_of_mask p, io_byte_and_line .output, fun tr s => ?effect⟩
  case effect =>
    exact ⟨(s.outWrite (s.getReg tr)).advance, rfl, rfl, fun _ => rfl, rfl, rfl, rfl, fun _ => rfl, rfl, rfl⟩

/-! ### IN with an event delivered -/

theorem exec_inp_line {tr : Reg} {s : State} {line : Text} {rest : List InEvent} (h : s.input = .line line :: rest) :
    exec (.inp tr) s = .next (((consume s (.line line) rest).setReg tr (inValue line)).advance) := by
  change execInp tr s = _
  rw [execInp, inRead_cons h]
  rfl

theorem exec_inp_endOfStream {tr : Reg} {s : State} {rest : List InEvent} (h : s.input = .endOfStream :: rest) :
    exec (.inp tr) s = .next ((consume s .endOfStream rest).raise .inputStream none) := by
  change execInp tr s = _
  rw [execInp, inRead_cons h]
  rfl

/-- Settles O23: the consumed line, the clamped value and the frame of the write. -/
theorem inStoresDeliveredLine : Obligations.InStoresDeliveredLine := by
  intro tr s line rest hinput
  refine ⟨_, exec_inp_line hinput, ?value, ?others, rfl, rfl, rfl, rfl, fun _ => rfl, rfl, rfl⟩
  case value => rw [getReg_advance, getReg_setReg_self, inValue]
  case others =>
    intro q hq
    rw [getReg_advance, getReg_setReg_ne _ _ hq, getReg_consume]

/-- Settles O24: the fault is raised in the state that has consumed and recorded the event. -/
theorem inAtEndOfStreamTakesFault : Obligations.InAtEndOfStreamTakesFault := by
  intro tr s rest hinput
  exact ⟨_, exec_inp_endOfStream hinput, rfl, rfl, fun _ => rfl, rfl, rfl, rfl, fun _ => rfl, rfl, rfl⟩

/-! ### IN with nothing delivered -/

theorem exec_inp_nil {tr : Reg} {s : State} (h : s.input = []) : exec (.inp tr) s = .next s := by
  change execInp tr s = _
  rw [execInp, inRead_nil h]

theorem runFor_of_waiting {s : State} (h : s.waiting = true) (n : Nat) : runFor n s = s := by
  induction n with
  | zero => rfl
  | succ n ih => rw [runFor, step_of_waiting h]; exact ih

/-- An IN consumes the oldest event and records it, whichever kind it is (R142, C9). -/
theorem exec_inp_consumes {tr : Reg} {s : State} {e : InEvent} {rest : List InEvent} (h : s.input = e :: rest) :
    ∃ t, exec (.inp tr) s = .next t ∧ t.io = s.io ++ [.inp e] ∧ t.input = rest := by
  cases e with
  | line line => exact ⟨_, exec_inp_line h, rfl, rfl⟩
  | endOfStream => exact ⟨_, exec_inp_endOfStream h, rfl, rfl⟩

/-- A delivery lifts the wait. -/
theorem step_deliver_of_waiting {s : State} (h : s.waiting = true) (e : InEvent) :
    ∃ t, step (s.deliver e) = .next t ∧ t.io = s.io ++ [.inp e] ∧ t.input = [] := by
  obtain ⟨hrunning, hinput, b, tr, hfetch, hd⟩ := (waiting_iff s).mp h
  have hpending : (s.deliver e).input = e :: [] := by rw [deliver_input, hinput]; rfl
  have hstep : step (s.deliver e) = exec (.inp tr) (s.deliver e) := by
    rw [step_of_fetch (s := s.deliver e) hrunning hfetch, deliver_policy, hd]
    rfl
  rw [hstep]
  exact exec_inp_consumes hpending

/-- Settles O25: each turn of the wait is a step to the same state, and one delivery is one consumed event. -/
theorem inWaitsForDelivery : Obligations.InWaitsForDelivery := by
  refine ⟨fun tr s => exec_inp_nil, fun s n h => runFor_of_waiting h n, fun s e h => ?lifted⟩
  case lifted =>
    obtain ⟨t, hstep, hio, hinput⟩ := step_deliver_of_waiting h e
    refine ⟨t, hstep, ?_, hio, hinput⟩
    rintro rfl
    simp at hio

end Sys2Proof.Machine
end

section
/-! PROOFS. Faults (spec/60_exceptions.md R160 to R168): their codes, their causes, and what a faulting step leaves unchanged. -/

namespace Sys2Proof.Machine

/-! ### The record and the status -/

theorem FaultReason.code_ne_zero (reason : FaultReason) : reason.code ≠ 0 := by
  cases reason <;> decide

theorem FaultReason.code_injective : Function.Injective FaultReason.code := by
  intro r q
  cases r <;> cases q <;> decide

theorem faultCode_eq_zero_iff (s : State) : s.faultCode = 0 ↔ s.fault = none := by
  unfold State.faultCode
  cases s.fault with
  | none => simp
  | some f => simp [f.reason.code_ne_zero]

/-- A reason's label stands for that reason alone (R160). -/
theorem faultCode_eq_code_iff (s : State) (reason : FaultReason) :
    s.faultCode = reason.code ↔ s.status = .faulted reason := by
  rw [status_faulted_iff]
  unfold State.faultCode
  cases s.fault with
  | none => simp [reason.code_ne_zero.symm]
  | some f => simp [FaultReason.code_injective.eq_iff]

/-- Settles O30: the label 0 and the label of each reason. -/
theorem faultCodesAreDistinctLabels : Obligations.FaultCodesAreDistinctLabels := by
  intro s
  exact ⟨faultCode_eq_zero_iff s, faultCode_eq_code_iff s .divisionByZero, faultCode_eq_code_iff s .unknownOpcode,
    faultCode_eq_code_iff s .inputStream⟩

theorem status_ne_faulted {s : State} (h : s.fault = none) (reason : FaultReason) : s.status ≠ .faulted reason := by
  rw [Ne, status_faulted_iff, h]
  simp

@[simp] theorem status_raise (s : State) (reason : FaultReason) (opc : Option (BitVec 3)) :
    (s.raise reason opc).status = .faulted reason := rfl

/-! ### Unknown opcodes -/

/-- Settles O28: each of the four verdicts raises the fault with its opcode. -/
theorem unknownOpcodesTakeFault : Obligations.UnknownOpcodesTakeFault := by
  have raised (k : BitVec 3) (s : State) := takesFault_raise .unknownOpcode (some k) s
  refine ⟨fun s => ⟨_, rfl, raised 5#3 s⟩, fun s => ⟨_, rfl, raised 6#3 s⟩, fun s => ⟨_, rfl, raised 7#3 s⟩, ?unknown4⟩
  case unknown4 =>
    intro s b hrunning hfetch hd
    exact ⟨_, step_unknown hrunning hfetch (by rw [hd]; rfl), raised 4#3 s⟩

/-! ### A faulting step -/

/-- Settles O31: of the outcomes of a decoded byte, the three that take a fault. -/
theorem faultsArePrecise : Obligations.FaultsArePrecise := by
  intro s t hstep hne
  obtain ⟨hfault, _, b, _, hrun, _⟩ := step_next_cases hstep
  rcases runDecoded_fault hrun with ⟨hkept, _⟩ | ⟨rfl, _⟩ | ⟨k, rfl, _⟩ | ⟨rest, tr, rfl, _, hinput⟩
  · exact absurd (hkept.trans hfault) hne
  · exact ⟨.divisionByZero, none, rfl, rfl, by simp, rfl, fun _ => ⟨rfl, rfl⟩, fun h => nomatch h⟩
  · exact ⟨.unknownOpcode, some k, rfl, rfl, by simp, rfl, fun _ => ⟨rfl, rfl⟩, fun h => nomatch h⟩
  · exact ⟨.inputStream, none, rfl, rfl, by simp, rfl, fun h => absurd rfl h, fun _ => ⟨rfl, hinput⟩⟩

/-- Settles O32: each outcome of a decoded byte has the cause of its own fault and of no other. -/
theorem eachFaultHasItsCause : Obligations.EachFaultHasItsCause := by
  intro s t b hfetch hstep
  obtain ⟨hfault, _, b', hfetch', hrun, _⟩ := step_next_cases hstep
  obtain rfl : b = b' := Option.some.inj (hfetch.symm.trans hfetch')
  rcases runDecoded_fault hrun with
    ⟨hkept, hdiv, hunknown, hstream⟩ | ⟨rfl, r1, r2, hd, hzero⟩ | ⟨k, rfl, hk⟩ | ⟨rest, tr, rfl, hd, hinput⟩
  · have hnone := status_ne_faulted (hkept.trans hfault)
    simp only [hnone, false_iff, hunknown, Option.isSome_none]
    exact ⟨fun ⟨r1, r2, hd, hzero⟩ => hdiv r1 r2 hd hzero, Bool.noConfusion, fun ⟨tr, rest, hd, hin⟩ => hstream tr rest hd hin⟩
  · simp [hd, hzero, unknownOpcodeOf]
  · rcases unknownOpcodeOf_eq_some_iff.mp hk with ⟨hd, _⟩ | ⟨hd, _⟩ | ⟨hd, _⟩ | ⟨hd, _⟩ <;> simp [hd, unknownOpcodeOf]
  · simp [hd, hinput, unknownOpcodeOf]

/-! ### Registers read and written -/

/-- What R21 says of an instruction's meaning `f` in the state `s`: it changes no register outside `writes`, and with equal
values in `reads` any register file gives the same outcome. -/
def ReadsWrites (reads writes : List Reg) (f : State → Host.Outcome State Fault Refusal) (s : State) : Prop :=
  ∃ t, f s = .next t ∧ (∀ q, q ∉ writes → t.getReg q = s.getReg q) ∧
    ∀ x : Regs, (∀ r ∈ reads, x.get r = s.getReg r) →
      ∃ u, f { s with regs := x } = .next u ∧ u.pc = t.pc ∧ u.fault = t.fault ∧ u.io = t.io ∧ u.input = t.input ∧
        (t.pc = s.pc + 1 → ∀ q ∈ writes, u.getReg q = t.getReg q) ∧
        (t.pc = s.pc → u.regs = x)

section
variable {reads writes : List Reg} {f : State → Host.Outcome State Fault Refusal} {s s' : State} {r : Reg} {v : Byte}

/-- An instruction that completes by writing one register with a value that the registers read determine. -/
theorem readsWrites_of_write (hpc : s'.pc = s.pc) (hregs : s'.regs = s.regs)
    (hf : ∀ x : Regs, (∀ r ∈ reads, x.get r = s.getReg r) →
      f { s with regs := x } = .next (({ s' with regs := x }.setReg r v).advance)) :
    ReadsWrites reads [r] f s := by
  refine ⟨((s'.setReg r v).advance), ?here, ?frame, fun x hx => ⟨_, hf x hx, rfl, rfl, rfl, rfl, ?written, ?stays⟩⟩
  case here =>
    have h := hf s.regs fun _ _ => rfl
    rw [← hregs] at h
    rw [← h, hregs]
  case frame =>
    intro q hq
    rw [getReg_advance, getReg_setReg_ne _ _ (by simpa using hq), State.getReg, hregs]
    rfl
  case written =>
    intro _ q hq
    rw [List.mem_singleton] at hq
    rw [hq, getReg_advance, getReg_advance, getReg_setReg_self, getReg_setReg_self]
  case stays =>
    intro h
    rw [advance_pc, setReg_pc, hpc] at h
    omega

/-- An instruction that touches no register: it has none to write, or it does not complete. -/
theorem readsWrites_of_keep (hregs : s'.regs = s.regs) (hnone : writes = [] ∨ s'.pc = s.pc)
    (hf : ∀ x : Regs, (∀ r ∈ reads, x.get r = s.getReg r) → f { s with regs := x } = .next { s' with regs := x }) :
    ReadsWrites reads writes f s := by
  refine ⟨s', ?here, ?frame, fun x hx => ⟨_, hf x hx, rfl, rfl, rfl, rfl, ?written, fun _ => rfl⟩⟩
  case here =>
    have h := hf s.regs fun _ _ => rfl
    rw [← hregs] at h
    rw [← h, hregs]
  case frame =>
    intro q _
    rw [State.getReg, hregs]
    rfl
  case written =>
    intro hpc q hq
    rcases hnone with rfl | hstays
    · cases hq
    · omega

end

theorem aluInstr_readsWrites (op : AluOp) (r1 r2 : Reg) (s : State) : ReadsWrites [r1, r2] [r1] (aluInstr op r1 r2) s := by
  have operands (x : Regs) (hx : ∀ r ∈ [r1, r2], x.get r = s.getReg r) :
      aluY op ({ s with regs := x }.getReg r1) ({ s with regs := x }.getReg r2) = aluY op (s.getReg r1) (s.getReg r2) :=
    congrArg₂ (aluY op) (hx r1 (by simp)) (hx r2 (by simp))
  cases hy : aluY op (s.getReg r1) (s.getReg r2) with
  | some y =>
    refine readsWrites_of_write (s' := s) (v := y) rfl rfl fun x hx => ?_
    rw [aluInstr, operands x hx, hy]
  | none =>
    refine readsWrites_of_keep (s' := s.raise .divisionByZero none) rfl (.inr rfl) fun x hx => ?_
    rw [aluInstr, operands x hx, hy]
    rfl

theorem execInp_readsWrites (tr : Reg) (s : State) : ReadsWrites [] [tr] (execInp tr) s := by
  cases hinput : s.input with
  | nil =>
    refine readsWrites_of_keep (s' := s) rfl (.inr rfl) fun x _ => ?_
    exact exec_inp_nil (s := { s with regs := x }) hinput
  | cons e rest =>
    cases e with
    | line line =>
      refine readsWrites_of_write (s' := consume s (.line line) rest) (v := inValue line) rfl rfl fun x _ => ?_
      exact exec_inp_line (s := { s with regs := x }) hinput
    | endOfStream =>
      refine readsWrites_of_keep (s' := (consume s .endOfStream rest).raise .inputStream none) rfl (.inr rfl) fun x _ => ?_
      exact exec_inp_endOfStream (s := { s with regs := x }) hinput

theorem execOut_readsWrites (tr : Reg) (s : State) : ReadsWrites [tr] [] (execOut tr) s := by
  refine readsWrites_of_keep (s' := (s.outWrite (s.getReg tr)).advance) rfl (.inl rfl) fun x hx => ?_
  have hvalue : { s with regs := x }.getReg tr = s.getReg tr := hx tr (by simp)
  rw [execOut, hvalue]
  rfl

theorem execUnknown_readsWrites (k : BitVec 3) (s : State) : ReadsWrites [] [] (execUnknown k) s :=
  readsWrites_of_keep (s' := s.raise .unknownOpcode (some k)) rfl (.inl rfl) fun _ _ => rfl

theorem exec_readsWrites (i : Instr) (s : State) : ReadsWrites (readsOf i) (writesOf i) (exec i) s := by
  cases i with
  | movi imm7 => exact readsWrites_of_write (s' := s) (v := zext8 imm7) rfl rfl fun _ _ => rfl
  | add r1 r2 => exact aluInstr_readsWrites .add r1 r2 s
  | sub r1 r2 => exact aluInstr_readsWrites .sub r1 r2 s
  | mul r1 r2 => exact aluInstr_readsWrites .mul r1 r2 s
  | div r1 r2 => exact aluInstr_readsWrites .div r1 r2 s
  | inp tr => exact execInp_readsWrites tr s
  | out tr => exact execOut_readsWrites tr s
  | reserved5 => exact execUnknown_readsWrites 5#3 s
  | reserved6 => exact execUnknown_readsWrites 6#3 s
  | reserved7 => exact execUnknown_readsWrites 7#3 s

/-- Settles O29: the register file's write, and the register sets of every instruction. -/
theorem registerReadAndWriteSets : Obligations.RegisterReadAndWriteSets := by
  refine ⟨fun s r q v => ?write, exec_readsWrites⟩
  case write =>
    split
    case isTrue h => rw [h, getReg_setReg_self]
    case isFalse h => exact getReg_setReg_ne s v h

end Sys2Proof.Machine
end

section
/-! PROOFS. The invariant of the machine (spec/10_state.md R26, 60_exceptions.md R163, 42_io.md R142): it holds at reset
(70_reset_and_hazards.md R190 to R193), every step keeps it, and the host's own operations keep what they should. -/

namespace Sys2Proof.Machine

/-! ### Every step keeps the invariant -/

/-- The end of the stream enters the history exactly with InputStreamFault (R142). -/
theorem Effect.endOfStream_mem_iff {s t : State} (h : Effect s t) (hfault : s.fault = none) :
    IoEvent.inp .endOfStream ∈ t.io ↔
      IoEvent.inp .endOfStream ∈ s.io ∨ ∃ f, t.fault = some f ∧ f.reason = .inputStream := by
  cases h with
  | wrote r v => simp [hfault]
  | emitted v => simp [hfault]
  | received r v line rest _ => simp [hfault]
  | held _ => simp [hfault]
  | raised reason opc hne => simp [hne]
  | streamEnded rest _ => simp

/-- An enabled step leaves the pc below L or moves it by one (R26). -/
theorem Effect.pc_le {s t : State} (h : Effect s t) (hle : s.pc ≤ s.progLen) (hne : s.pc ≠ s.progLen) : t.pc ≤ t.progLen := by
  have hlen : t.progLen = s.progLen := congrArg Memory.size h.prog_policy.1
  rcases h.pc with hpc | hpc <;> omega

/-- Each fault's record is explained by the byte that raised it (R160, R162). -/
theorem runDecoded_fault_explained {s t : State} {b : Byte} (hfault : s.fault = none) (hfetch : s.fetch = some b)
    (hrun : runDecoded (decode s.policy b) s = .next t) {f : FaultRecord} (hf : t.fault = some f) : f.ExplainedBy t := by
  rcases runDecoded_fault hrun with ⟨hkept, _⟩ | ⟨rfl, r1, r2, hd, hzero⟩ | ⟨k, rfl, hk⟩ | ⟨rest, tr, rfl, hd, _⟩
  · simp [hkept, hfault] at hf
  · cases hf
    exact ⟨rfl, b, hfetch, rfl, r1, r2, hd, hzero⟩
  · cases hf
    exact ⟨rfl, b, hfetch, rfl, hk⟩
  · cases hf
    exact ⟨rfl, b, hfetch, rfl, tr, hd⟩

theorem State.Inv.of_step_next {s t : State} (inv : s.Inv) (h : step s = .next t) : t.Inv := by
  obtain ⟨hfault, hpc, b, hfetch, hrun, heffect⟩ := step_next_cases h
  refine ⟨?prog_wf, heffect.pc_le inv.pc_le hpc, fun f => runDecoded_fault_explained hfault hfetch hrun, ?endOfStream⟩
  case prog_wf => rw [heffect.prog_policy.1]; exact inv.prog_wf
  case endOfStream =>
    have hnotYet : IoEvent.inp .endOfStream ∉ s.io := by
      rw [inv.end_of_stream_iff, hfault]
      simp
    rw [heffect.endOfStream_mem_iff hfault]
    exact or_iff_right hnotYet

/-- Settles O48. The enabled step found no record and so no consumed end of stream; the record that it may have made is
explained by the byte it ran. -/
theorem stepKeepsInvariant : Obligations.StepKeepsInvariant :=
  fun _ _ inv hstep => inv.of_step_next hstep

/-! ### Reset -/

theorem boot_inv (bytes : List Byte) (p : IoBit3Policy) : (State.boot bytes p).Inv :=
  ⟨Memory.ofBytes_wf bytes, Nat.zero_le _, fun _ h => (nomatch h), by simp⟩

/-- With no program placed, the start of a run is the model's reset (R190; log 1, log 2). -/
theorem reset_eq_boot : State.reset = State.boot [] IoBit3Policy.default := rfl

/-- Settles O47: the reset state is the start of a run of the empty program. -/
theorem invariantHoldsAtReset : Obligations.InvariantHoldsAtReset :=
  ⟨reset_eq_boot ▸ boot_inv [] IoBit3Policy.default, boot_inv⟩

theorem boot_progLen (bytes : List Byte) (p : IoBit3Policy) : (State.boot bytes p).progLen = bytes.length :=
  Memory.size_ofBytes bytes

theorem boot_fetch (bytes : List Byte) (p : IoBit3Policy) : (State.boot bytes p).fetch = bytes[0]? :=
  Memory.read_ofBytes bytes 0

theorem boot_status (bytes : List Byte) (p : IoBit3Policy) :
    (State.boot bytes p).status = if bytes.length = 0 then .halted else .running := by
  split
  case isTrue hempty => exact (status_halted_iff _).mpr ⟨rfl, by rw [boot_pc, boot_progLen, hempty]⟩
  case isFalse hne => exact (status_running_iff _).mpr ⟨rfl, by rw [boot_pc, boot_progLen]; exact Ne.symm hne⟩

/-- Settles O45: the fetch, the length and the status are those of the placed bytes; the rest is the reset state's. -/
theorem resetStateOfLoadedProgram : Obligations.ResetStateOfLoadedProgram := by
  refine ⟨fun bytes p => ?boot, reset_eq_boot, rfl⟩
  case boot =>
    exact ⟨Regs.get_reset, rfl, rfl, rfl, rfl, boot_fetch bytes p, boot_progLen bytes p, boot_status bytes p⟩

/-! ### The result of a run -/

/-- Settles O42: R37 at each status. -/
theorem resultFollowsStatus : Obligations.ResultFollowsStatus := by
  intro s
  refine ⟨fun hhalted => ?halted, fun r hfaulted => ?faulted, fun hrunning => ?running⟩
  case halted =>
    simp only [State.result, hhalted]
    rfl
  case faulted =>
    obtain ⟨f, hf, hreason⟩ := (status_faulted_iff s r).mp hfaulted
    exact ⟨f, hf, hreason, by simp [State.result, hfaulted, hf]⟩
  case running => simp [State.result, hrunning]

/-- Settles O46: the empty program's start is Halted, with the reset registers as its result. -/
theorem emptyProgramHaltsAtReset : Obligations.EmptyProgramHaltsAtReset := by
  intro p
  have hhalted : (State.boot [] p).status = .halted := boot_status [] p
  refine ⟨hhalted, fun t hstep => ?noStep, (resultFollowsStatus _).1 hhalted⟩
  case noStep =>
    rw [status_running_of_step_next hstep] at hhalted
    cases hhalted

/-! ### The host's operations -/

/-- A delivery changes nothing that the invariant speaks of. -/
theorem State.Inv.deliver {s : State} (inv : s.Inv) (e : InEvent) : (s.deliver e).Inv :=
  ⟨inv.prog_wf, inv.pc_le, inv.fault_explained, inv.end_of_stream_iff⟩

/-- Settles O49: a delivery is an update of the pending events alone. -/
theorem deliveryTouchesOnlyPendingInput : Obligations.DeliveryTouchesOnlyPendingInput :=
  fun _ e => ⟨fun _ => rfl, rfl, rfl, rfl, ⟨fun _ => rfl, rfl, rfl⟩, rfl, rfl, fun inv => inv.deliver e⟩

theorem withFetchWord_fetch (s : State) (nbits w : Nat) : (s.withFetchWord nbits w).fetch = some (tableByte nbits w) := by
  rw [State.fetch, withFetchWord_prog, withFetchWord_pc, Memory.read_ofBytes, placeAt_getElem?]

/-- The placement clears the record, and the placed byte is at the pc: the machine runs. -/
theorem withFetchWord_status (s : State) (nbits w : Nat) : (s.withFetchWord nbits w).status = .running := by
  refine (status_running_iff _).mpr ⟨rfl, ?_⟩
  rw [State.progLen, withFetchWord_prog, withFetchWord_pc, Memory.size_ofBytes]
  exact (lt_length_placeAt _ _ _).ne

/-- Every other byte of a canonical program is as before. -/
theorem withFetchWord_read_ne {s : State} (hwf : s.prog.wf = true) (nbits w : Nat) {k : Nat} (hk : k < s.progLen)
    (hne : k ≠ s.pc) : (s.withFetchWord nbits w).prog.read k = s.prog.read k := by
  have hlen : k < s.prog.bytes.length := by rwa [Memory.length_bytes]
  rw [withFetchWord_prog, Memory.read_ofBytes, placeAt_getElem?_ne _ _ _ _ hlen hne, Memory.read_eq_bytes hwf]

theorem tableByte_eight (w : Nat) : tableByte 8 w = BitVec.ofNat 8 w := by
  rw [tableByte, ← BitVec.toNat_inj, BitVec.toNat_ofNat, BitVec.toNat_ofNat, Nat.mod_mod]

/-- Settles O50: after the placement the machine runs and fetches the placed byte. -/
theorem placedInstructionRunsNext : Obligations.PlacedInstructionRunsNext := by
  intro s w
  refine ⟨fun i hd => ?runs, fun _ => rfl, rfl, ⟨rfl, rfl⟩, rfl, fun hwf k => withFetchWord_read_ne hwf 8 w⟩
  case runs =>
    rw [step_of_fetch (withFetchWord_status s 8 w) (withFetchWord_fetch s 8 w), withFetchWord_policy, tableByte_eight, hd]
    rfl

end Sys2Proof.Machine
end

section
/-! PROOFS. The step and the run (spec/10_state.md R25, R28, R34, R36; 42_io.md R140; 60_exceptions.md R166): which steps answer,
where they leave the pc, what they do to the channels, and when a run is over (70_reset_and_hazards.md R199). -/

namespace Sys2Proof.Machine

/-! ### Which steps answer -/

theorem step_of_halted {s : State} (h : s.status = .halted) : step s = .fault .noStepHalted := by
  simp [step, h]

theorem step_of_faulted {s : State} {r : FaultReason} (h : s.status = .faulted r) : step s = .fault (.noStepFaulted r) := by
  simp [step, h]

theorem step_of_fetch_none {s : State} (hrunning : s.status = .running) (hfetch : s.fetch = none) :
    step s = .fault (.fetchOutsideProgram s.pc) :=
  (step_fetchOutside_iff s s.pc).mpr ⟨hrunning, hfetch, rfl⟩

/-- A step answers a next state or stops with a fault; it refuses nothing (R36, R70). -/
theorem step_next_or_fault (s : State) : (∃ t, step s = .next t) ∨ ∃ f, step s = .fault f := by
  cases hstatus : s.status with
  | halted => exact .inr ⟨_, step_of_halted hstatus⟩
  | faulted r => exact .inr ⟨_, step_of_faulted hstatus⟩
  | running =>
    cases hfetch : s.fetch with
    | none => exact .inr ⟨_, step_of_fetch_none hstatus hfetch⟩
    | some b =>
      obtain ⟨t, hstep, _⟩ := step_effect_of_fetch hstatus hfetch
      exact .inl ⟨t, hstep⟩

theorem State.Inv.step_answers {s : State} (inv : s.Inv) (hrunning : s.status = .running) : ∃ t, step s = .next t := by
  obtain ⟨_, b, hfetch⟩ := inv.fetch_of_running hrunning
  obtain ⟨t, hstep, _⟩ := step_effect_of_fetch hrunning hfetch
  exact ⟨t, hstep⟩

/-- Settles O35: a step has two kinds of outcome, and the invariant leaves a running one a byte to fetch. -/
theorem everyRunningStepAnswers : Obligations.EveryRunningStepAnswers := by
  refine ⟨fun s r hrefused => ?noRefusal, fun s inv => inv.step_answers⟩
  case noRefusal =>
    rcases step_next_or_fault s with ⟨t, h⟩ | ⟨f, h⟩ <;> rw [h] at hrefused <;> cases hrefused

/-- Settles O34: the step is the decoded byte, run. -/
theorem stepRunsDecodedInstruction : Obligations.StepRunsDecodedInstruction := by
  intro s b hrunning hfetch
  rw [step_of_fetch hrunning hfetch]
  exact ⟨fun i hd => by rw [hd]; rfl, fun hd => by rw [hd]; rfl⟩

/-! ### Runs -/

theorem runFor_succ_of_next {s t : State} (h : step s = .next t) (n : Nat) : runFor (n + 1) s = runFor n t := by
  rw [runFor, h]

theorem runFor_of_fault {s : State} {f : Fault} (h : step s = .fault f) (n : Nat) : runFor n s = s := by
  cases n with
  | zero => rfl
  | succ n => rw [runFor, h]

theorem runFor_of_not_running {s : State} (h : s.status ≠ .running) (n : Nat) : runFor n s = s := by
  cases hstatus : s.status with
  | running => exact absurd hstatus h
  | halted => exact runFor_of_fault (step_of_halted hstatus) n
  | faulted r => exact runFor_of_fault (step_of_faulted hstatus) n

/-- Settles O33: the stop of each terminal status, at which a run ends. -/
theorem terminalStatesTakeNoStep : Obligations.TerminalStatesTakeNoStep :=
  fun _ => ⟨step_of_halted, fun _ => step_of_faulted, runFor_of_not_running⟩

/-! ### The pc -/

/-- An outcome of a decoded byte by its pc: it completes, it takes a fault, or it is an IN that waits (R25, R33, R162). -/
theorem runDecoded_pc {s t : State} {v : Decoded} (h : runDecoded v s = .next t) :
    (t.pc = s.pc + 1 ∧ t.fault = s.fault) ∨ (t.pc = s.pc ∧ t.fault ≠ none) ∨
      (t = s ∧ s.input = [] ∧ ∃ tr, v = .instr (.inp tr)) := by
  have alu {op : AluOp} {r1 r2 : Reg} (h : aluInstr op r1 r2 s = .next t) :
      (t.pc = s.pc + 1 ∧ t.fault = s.fault) ∨ (t.pc = s.pc ∧ t.fault ≠ none) := by
    rcases aluInstr_cases op r1 r2 s with ⟨_, _, h'⟩ | ⟨_, _, h'⟩ <;> rw [h'] at h <;> cases h
    · exact .inl ⟨rfl, rfl⟩
    · exact .inr ⟨rfl, Option.some_ne_none _⟩
  cases v with
  | unknown4 => cases h; exact .inr (.inl ⟨rfl, Option.some_ne_none _⟩)
  | instr i =>
    cases i with
    | movi imm7 => cases h; exact .inl ⟨rfl, rfl⟩
    | add r1 r2 => exact or_assoc.mp (.inl (alu (op := .add) h))
    | sub r1 r2 => exact or_assoc.mp (.inl (alu (op := .sub) h))
    | mul r1 r2 => exact or_assoc.mp (.inl (alu (op := .mul) h))
    | div r1 r2 => exact or_assoc.mp (.inl (alu (op := .div) h))
    | out tr => cases h; exact .inl ⟨rfl, rfl⟩
    | reserved5 | reserved6 | reserved7 => cases h; exact .inr (.inl ⟨rfl, Option.some_ne_none _⟩)
    | inp tr =>
      change execInp tr s = _ at h
      rcases execInp_cases tr s with ⟨hinput, h'⟩ | ⟨rest, _, h'⟩ | ⟨line, rest, _, h'⟩ <;> rw [h'] at h <;> cases h
      · exact .inr (.inr ⟨rfl, hinput, tr, rfl⟩)
      · exact .inr (.inl ⟨rfl, Option.some_ne_none _⟩)
      · exact .inl ⟨rfl, rfl⟩

/-- Everything a step can do to the pc (R25). -/
theorem step_pc_cases {s t : State} (h : step s = .next t) :
    (s.waiting = false ∧ t.pc = s.pc + 1 ∧ t.fault = none) ∨ (t.pc = s.pc ∧ t.fault ≠ none) ∨
      (s.waiting = true ∧ t = s ∧ t.fault = none) := by
  obtain ⟨hfault, _, b, hfetch, hrun, _⟩ := step_next_cases h
  rcases runDecoded_pc hrun with ⟨hpc, hkept⟩ | hfaulted | ⟨rfl, hinput, tr, hd⟩
  · refine .inl ⟨?_, hpc, hkept.trans hfault⟩
    rw [← Bool.not_eq_true]
    intro hwaiting
    rw [step_of_waiting hwaiting] at h
    cases h
    omega
  · exact .inr (.inl hfaulted)
  · have hwaiting := (waiting_iff t).mpr ⟨status_running_of_step_next h, hinput, b, tr, hfetch, hd⟩
    exact .inr (.inr ⟨hwaiting, rfl, hfault⟩)

/-- Settles O38: the three cases of `step_pc_cases`. -/
theorem pcMovesByOne : Obligations.PcMovesByOne := by
  intro s t hstep
  rcases step_pc_cases hstep with ⟨hwaiting, hpc, hnone⟩ | ⟨hpc, hsome⟩ | ⟨hwaiting, hsame, hnone⟩
  · exact ⟨fun _ => .inl ⟨hwaiting, hpc⟩, fun hsome => absurd hnone hsome⟩
  · exact ⟨fun hnone => absurd hnone hsome, fun _ => hpc⟩
  · exact ⟨fun _ => .inr ⟨hwaiting, hsame⟩, fun hsome => absurd hnone hsome⟩

/-! ### The channels -/

/-- A step appends at most one entry to the history (R34). -/
theorem Effect.io_cases {s t : State} (h : Effect s t) : t.io = s.io ∨ ∃ e, t.io = s.io ++ [e] := by
  cases h with
  | wrote | held | raised => exact .inl rfl
  | emitted v => exact .inr ⟨.out v, rfl⟩
  | received _ _ line => exact .inr ⟨.inp (.line line), rfl⟩
  | streamEnded => exact .inr ⟨.inp .endOfStream, rfl⟩

theorem step_io_cases {s t : State} (h : step s = .next t) : t.io = s.io ∨ ∃ e, t.io = s.io ++ [e] := by
  obtain ⟨_, _, _, _, _, heffect⟩ := step_next_cases h
  exact heffect.io_cases

theorem runFor_io_prefix (n : Nat) (s : State) : s.io <+: (runFor n s).io := by
  refine runFor_induct (P := fun s t => s.io <+: t.io) (fun _ => List.prefix_rfl) ?front n s
  case front =>
    intro s t u hstep hrest
    rcases step_io_cases hstep with hsame | ⟨e, happend⟩
    · rwa [hsame] at hrest
    · exact (List.prefix_append s.io [e]).trans (happend ▸ hrest)

theorem outputsOf_append (io more : List IoEvent) : outputsOf (io ++ more) = outputsOf io ++ outputsOf more := by
  induction io with
  | nil => rfl
  | cons e io ih => cases e <;> simp [outputsOf, ih]

theorem consumedOf_append (io more : List IoEvent) : consumedOf (io ++ more) = consumedOf io ++ consumedOf more := by
  induction io with
  | nil => rfl
  | cons e io ih => cases e <;> simp [consumedOf, ih]

/-- Settles O40: a longer history has more values emitted, in the same order. -/
theorem historyOnlyGrows : Obligations.HistoryOnlyGrows := by
  refine ⟨fun s t => step_io_cases, fun n s => ⟨runFor_io_prefix n s, ?outputs⟩⟩
  case outputs =>
    obtain ⟨more, happend⟩ := runFor_io_prefix n s
    rw [← happend, outputsOf_append]
    exact List.prefix_append _ _

/-- What a step consumes it takes from the front of the pending events (R140). -/
theorem Effect.consumed_append_input {s t : State} (h : Effect s t) :
    consumedOf t.io ++ t.input = consumedOf s.io ++ s.input := by
  cases h with
  | wrote | held | raised => rfl
  | emitted v => simp [consumedOf_append, consumedOf]
  | received _ _ line rest hinput => simp [consumedOf_append, consumedOf, hinput]
  | streamEnded rest hinput => simp [consumedOf_append, consumedOf, hinput]

/-- Settles O41: the sequence is conserved by every step, hence by every run. -/
theorem eventsConsumedOnceInOrder : Obligations.EventsConsumedOnceInOrder := by
  refine runFor_induct (P := fun s t => consumedOf t.io ++ t.input = consumedOf s.io ++ s.input) (fun _ => rfl) ?front
  case front =>
    intro s t u hstep hrest
    obtain ⟨_, _, _, _, _, heffect⟩ := step_next_cases hstep
    exact hrest.trans heffect.consumed_append_input

/-! ### Termination -/

/-- A waiting machine has an IN left and no event for it. -/
theorem inputsLeft_pos_of_waiting {s : State} (hpc : s.pc < s.progLen) (h : s.waiting = true) :
    s.input.length < s.inputsLeft := by
  obtain ⟨_, hinput, b, tr, hfetch, hd⟩ := (waiting_iff s).mp h
  have hsucc := inputsLeft_succ (t := s.advance) hpc hfetch rfl rfl rfl
  rw [hd, isInput, if_pos rfl] at hsucc
  rw [hinput, hsucc]
  exact Nat.succ_pos _

/-- The run is over after one step for each byte left, by induction on their number. -/
theorem runFor_ends {s : State} (n : Nat) (inv : s.Inv) (hn : s.progLen - s.pc = n)
    (henough : s.inputsLeft ≤ s.input.length) : (runFor n s).status ≠ .running := by
  induction n generalizing s with
  | zero =>
    intro hrunning
    obtain ⟨hlt, _⟩ := inv.fetch_of_running hrunning
    omega
  | succ n ih =>
    by_cases hrunning : s.status = .running
    · obtain ⟨hlt, _⟩ := inv.fetch_of_running hrunning
      obtain ⟨t, hstep⟩ := inv.step_answers hrunning
      rw [runFor_succ_of_next hstep]
      rcases step_pc_cases hstep with ⟨_, hpc, _⟩ | ⟨_, hfaulted⟩ | ⟨hwaiting, _⟩
      · have hlen : t.progLen = s.progLen := congrArg Memory.size (step_next_prog_policy hstep).1
        exact ih (inv.of_step_next hstep) (by omega) (inputsLeft_le_of_step hstep hlt hpc henough)
      · have hterminal : t.status ≠ .running := fun h => hfaulted ((status_running_iff t).mp h).1
        rwa [runFor_of_not_running hterminal]
      · exact absurd (inputsLeft_pos_of_waiting hlt hwaiting) henough.not_gt
    · rwa [runFor_of_not_running hrunning]

/-- Settles O43: the induction of `runFor_ends` at the bytes left. -/
theorem runEndsWithinProgramLength : Obligations.RunEndsWithinProgramLength :=
  fun _ inv henough => runFor_ends _ inv rfl henough

/-! ### The bit-3 policy -/

/-- The machine under another policy. -/
def withPolicy (p : IoBit3Policy) (s : State) : State := { s with policy := p }

@[simp] theorem getReg_withPolicy (p : IoBit3Policy) (s : State) (r : Reg) : (withPolicy p s).getReg r = s.getReg r := rfl

theorem aluInstr_withPolicy {op : AluOp} {r1 r2 : Reg} {s t : State} (p : IoBit3Policy) (h : aluInstr op r1 r2 s = .next t) :
    aluInstr op r1 r2 (withPolicy p s) = .next (withPolicy p t) := by
  rw [aluInstr] at h ⊢
  rw [getReg_withPolicy, getReg_withPolicy]
  cases hy : aluY op (s.getReg r1) (s.getReg r2) <;> rw [hy] at h <;> cases h <;> rfl

theorem exec_inp_withPolicy {tr : Reg} {s t : State} (p : IoBit3Policy) (h : exec (.inp tr) s = .next t) :
    exec (.inp tr) (withPolicy p s) = .next (withPolicy p t) := by
  have hkept : (withPolicy p s).input = s.input := rfl
  cases hinput : s.input with
  | nil =>
    rw [exec_inp_nil hinput] at h
    cases h
    exact exec_inp_nil (hkept.trans hinput)
  | cons e rest =>
    cases e with
    | line line =>
      rw [exec_inp_line hinput] at h
      cases h
      exact exec_inp_line (hkept.trans hinput)
    | endOfStream =>
      rw [exec_inp_endOfStream hinput] at h
      cases h
      exact exec_inp_endOfStream (hkept.trans hinput)

/-- No instruction's meaning depends on the policy: only the decoder reads it (R69). -/
theorem exec_withPolicy {i : Instr} {s t : State} (p : IoBit3Policy) (h : exec i s = .next t) :
    exec i (withPolicy p s) = .next (withPolicy p t) := by
  cases i with
  | add r1 r2 => exact aluInstr_withPolicy (op := .add) p h
  | sub r1 r2 => exact aluInstr_withPolicy (op := .sub) p h
  | mul r1 r2 => exact aluInstr_withPolicy (op := .mul) p h
  | div r1 r2 => exact aluInstr_withPolicy (op := .div) p h
  | inp tr => exact exec_inp_withPolicy p h
  | movi | out | reserved5 | reserved6 | reserved7 => cases h; rfl

/-- At an encoder-written byte the decoder answers alike under both policies, and so does the step. -/
theorem step_withPolicy {s t : State} (hwritten : EncoderWritten s.prog) (p : IoBit3Policy) (h : step s = .next t) :
    step (withPolicy p s) = .next (withPolicy p t) := by
  obtain ⟨_, _, b, hfetch, hrun, _⟩ := step_next_cases h
  obtain ⟨i, hi⟩ := hwritten s.pc b hfetch
  rw [decode_of_encode hi] at hrun
  have hrunning : (withPolicy p s).status = .running := status_running_of_step_next (s := s) h
  rw [step_of_fetch hrunning hfetch, decode_of_encode hi]
  exact exec_withPolicy p hrun

/-- Where the step stops, it stops under any policy. -/
theorem step_withPolicy_fault {s : State} {f : Fault} (p : IoBit3Policy) (h : step s = .fault f) :
    step (withPolicy p s) = .fault f := by
  cases hstatus : s.status with
  | halted => rw [step_of_halted hstatus] at h; rw [← h]; exact step_of_halted hstatus
  | faulted r => rw [step_of_faulted hstatus] at h; rw [← h]; exact step_of_faulted hstatus
  | running =>
    cases hfetch : s.fetch with
    | none => rw [step_of_fetch_none hstatus hfetch] at h; rw [← h]; exact step_of_fetch_none hstatus hfetch
    | some b =>
      obtain ⟨t, hstep, _⟩ := step_effect_of_fetch hstatus hfetch
      rw [hstep] at h
      cases h

theorem runFor_withPolicy {s : State} (hwritten : EncoderWritten s.prog) (p : IoBit3Policy) (n : Nat) :
    runFor n (withPolicy p s) = withPolicy p (runFor n s) := by
  induction n generalizing s with
  | zero => rfl
  | succ n ih =>
    rcases step_next_or_fault s with ⟨t, hstep⟩ | ⟨f, hstop⟩
    · have hprog : EncoderWritten t.prog := by rwa [(step_next_prog_policy hstep).1]
      rw [runFor_succ_of_next hstep, runFor_succ_of_next (step_withPolicy hwritten p hstep), ih hprog]
    · rw [runFor_of_fault hstop, runFor_of_fault (step_withPolicy_fault p hstop)]

/-- Settles O44: the run under UNKNOWN is the run under IGNORE with the policy exchanged. -/
theorem assembledProgramsIgnorePolicy : Obligations.AssembledProgramsIgnorePolicy := by
  intro bytes events n hwritten
  exact runFor_withPolicy (s := { State.boot bytes .ignore with input := events }) hwritten .unknown n

end Sys2Proof.Machine
end

section
/-! PROOFS. The toolchain (spec/30_encoding.md sections 5 and 6, R80 to R93): preprocessing, recognition, operands, batches, and
disassembly. -/

namespace Sys2Proof.Machine

/-! ### Comments and white space -/

/-- A line's assembly is that of its preprocessed text. -/
theorem assembleLine_congr {line line' : Text} (h : preprocess line = preprocess line') :
    assembleLine line = assembleLine line' := by
  rw [assembleLine, assembleLine, h]

theorem isSpace_ne_semicolon {ch : Char} (h : isSpace ch = true) : ch ≠ ';' := by
  rintro rfl
  revert h
  decide

/-- The first step of preprocessing: the comment is cut. -/
def cutComment (t : Text) : Text := t.takeWhile (· != ';')

theorem preprocess_eq (t : Text) : preprocess t = trim (cutComment t) := rfl

theorem cutComment_of_not_mem {t : Text} (h : ';' ∉ t) : cutComment t = t :=
  List.takeWhile_eq_self_iff.mpr fun _ hch => bne_iff_ne.mpr (ne_of_mem_of_not_mem hch h)

theorem cutComment_append_of_not_mem {t : Text} (h : ';' ∉ t) (rest : Text) : cutComment (t ++ rest) = t ++ cutComment rest :=
  List.takeWhile_append_of_pos fun _ hch => bne_iff_ne.mpr (ne_of_mem_of_not_mem hch h)

/-- From the first `;` on, nothing counts. -/
theorem cutComment_append_comment {t : Text} (h : ';' ∉ t) (comment : Text) : cutComment (t ++ ';' :: comment) = t := by
  rw [cutComment_append_of_not_mem h]
  exact List.append_nil t

theorem cutComment_append_of_mem {t : Text} (h : ';' ∈ t) (rest : Text) : cutComment (t ++ rest) = cutComment t := by
  obtain ⟨front, comment, rfl, hfront⟩ := List.eq_append_cons_of_mem h
  rw [List.append_assoc, List.cons_append, cutComment_append_comment hfront, cutComment_append_comment hfront]

theorem trim_eq (t : Text) : trim t = (t.dropWhile isSpace).rdropWhile isSpace := rfl

theorem trim_append_left {before : Text} (h : ∀ ch ∈ before, isSpace ch = true) (t : Text) : trim (before ++ t) = trim t := by
  rw [trim_eq, trim_eq, List.dropWhile_append_of_pos h]

theorem rdropSpace_append {after : Text} (h : ∀ ch ∈ after, isSpace ch = true) (t : Text) :
    (t ++ after).rdropWhile isSpace = t.rdropWhile isSpace := by
  rw [List.rdropWhile, List.reverse_append, List.dropWhile_append_of_pos (by simpa using h), List.rdropWhile]

theorem trim_append_right {after : Text} (h : ∀ ch ∈ after, isSpace ch = true) (t : Text) : trim (t ++ after) = trim t := by
  rw [trim_eq, trim_eq, List.dropWhile_append]
  split
  case isTrue hblank =>
    rw [List.isEmpty_iff] at hblank
    rw [hblank, List.dropWhile_eq_nil_iff.mpr h]
  case isFalse => exact rdropSpace_append h _

/-- The white space after a line is cut with its comment, or else trimmed. -/
theorem preprocess_append_right {after : Text} (h : ∀ ch ∈ after, isSpace ch = true) (line : Text) :
    preprocess (line ++ after) = preprocess line := by
  rw [preprocess_eq, preprocess_eq]
  by_cases hcomment : ';' ∈ line
  · rw [cutComment_append_of_mem hcomment]
  · have hafter : ';' ∉ after := fun hmem => isSpace_ne_semicolon (h _ hmem) rfl
    rw [cutComment_append_of_not_mem hcomment, cutComment_of_not_mem hafter, cutComment_of_not_mem hcomment,
      trim_append_right h]

theorem preprocess_append_left {before : Text} (h : ∀ ch ∈ before, isSpace ch = true) (line : Text) :
    preprocess (before ++ line) = preprocess line := by
  have hbefore : ';' ∉ before := fun hmem => isSpace_ne_semicolon (h _ hmem) rfl
  rw [preprocess_eq, cutComment_append_of_not_mem hbefore, trim_append_left h, ← preprocess_eq]

theorem preprocess_comment {line : Text} (h : ';' ∉ line) (comment : Text) :
    preprocess (line ++ ';' :: comment) = preprocess line := by
  rw [preprocess_eq, preprocess_eq, cutComment_append_comment h, cutComment_of_not_mem h]

/-- Settles O51: a comment and white space on either side leave the preprocessed text; a blank line is white space before an
empty one. -/
theorem commentsAndSpaceAreStripped : Obligations.CommentsAndSpaceAreStripped := by
  refine ⟨fun line comment h => assembleLine_congr (preprocess_comment h comment),
    fun before line after hbefore hafter => assembleLine_congr ?space, fun blankLine h => ?blank⟩
  case space => rw [preprocess_append_right hafter, preprocess_append_left hbefore]
  case blank =>
    have hempty := preprocess_append_left h []
    rw [List.append_nil] at hempty
    exact assembleLine_congr hempty

/-! ### Recognition -/

/-- A mnemonic's letters in any case, by the upper-case line (R81, D17). -/
theorem dropPrefix_eq (name line : Text) :
    dropPrefix name line = if name.isPrefixOf (line.map Char.toUpper) then some (line.drop name.length) else none := by
  induction name generalizing line with
  | nil => rfl
  | cons m name ih =>
    cases line with
    | nil => rfl
    | cons ch rest =>
      by_cases hch : ch.toUpper = m
      · simp [dropPrefix, hch, ih]
      · simp [dropPrefix, hch, List.isPrefixOf, Ne.symm hch]

/-- Recognition is the first entry of the list that matches (R81). -/
theorem recognise_eq_find? (entries : List (Text × Mnemonic)) (line : Text) :
    recognise entries line = (entries.find? fun entry => entry.1.isPrefixOf (line.map Char.toUpper)).map
      fun entry => (entry.2, line.drop entry.1.length) := by
  induction entries with
  | nil => rfl
  | cons entry entries ih =>
    obtain ⟨name, m⟩ := entry
    rw [recognise, dropPrefix_eq, List.find?_cons, ih]
    cases name.isPrefixOf (line.map Char.toUpper) <;> rfl

theorem assembleLine_of_recognise_none {line : Text} (hne : preprocess line ≠ [])
    (h : recognise mnemonicList (preprocess line) = none) :
    assembleLine line = .error (.unknownInstruction (preprocess line)) := by
  cases hline : preprocess line with
  | nil => exact absurd hline hne
  | cons ch rest =>
    rw [hline] at h
    simp only [assembleLine, hline, h]

/-- Settles O52: recognition is a search of the list, and a line that no entry matches is left to R86. -/
theorem firstMnemonicPrefixWins : Obligations.FirstMnemonicPrefixWins := by
  refine ⟨rfl, recognise_eq_find? mnemonicList, fun line hne hnone => assembleLine_of_recognise_none hne ?none⟩
  case none =>
    rw [recognise_eq_find?, Option.map_eq_none_iff, List.find?_eq_none]
    exact fun entry hentry => by rw [hnone entry hentry]; exact Bool.false_ne_true

/-! ### MOVI's operand -/

theorem assembleMovi_of_length_ne_one {toks : List Text} (h : toks.length ≠ 1) : assembleMovi toks = .error .invalidOperand := by
  match toks with
  | [] => rfl
  | [_] => exact absurd rfl h
  | _ :: _ :: _ => rfl

theorem assembleMovi_literal {tok : Text} {v : Int} (h : DecimalLiteral tok v) :
    (0 ≤ v ∧ v ≤ 127 → ∃ b, assembleMovi [tok] = .ok b ∧ (b.toNat : Int) = v) ∧
      (¬ (0 ≤ v ∧ v ≤ 127) → assembleMovi [tok] = .error .invalidOperand) := by
  have hparse := (parseLiteral_eq_some_iff tok v).mpr h
  constructor
  · intro hrange
    obtain ⟨b, hencode, hvalue⟩ := encodeMovi_inRange hrange
    exact ⟨b, by simp only [assembleMovi, hparse, hencode], hvalue⟩
  · intro hrange
    simp only [assembleMovi, hparse, encodeMovi_outOfRange hrange]

theorem assembleMovi_no_literal {tok : Text} (h : ∀ v, ¬ DecimalLiteral tok v) : assembleMovi [tok] = .error .invalidOperand := by
  have hparse : parseLiteral tok = none :=
    Option.eq_none_iff_forall_ne_some.mpr fun v hv => h v ((parseLiteral_eq_some_iff tok v).mp hv)
  simp only [assembleMovi, hparse]

/-- Settles O53: the reader of literals accepts the grammar exactly, and the encoder's range decides. -/
theorem moviOperandIsWholeLiteral : Obligations.MoviOperandIsWholeLiteral :=
  ⟨fun _ => assembleMovi_of_length_ne_one, fun _ _ => assembleMovi_literal, fun _ => assembleMovi_no_literal⟩

/-! ### Register operands -/

theorem assembleArith_registers (op : AluOp) (r1 r2 : Reg) (u1 u2 : Text) :
    assembleArith op [r1.letter :: u1, r2.letter :: u2] = .ok (arithByte op r1 r2) := by
  simp only [assembleArith, List.head?_cons, encodeArithmetic_letters]

theorem assembleArith_invalid (op : AluOp) {t1 t2 : Text}
    (h : (∀ r : Reg, t1.head? ≠ some r.letter) ∨ (∀ r : Reg, t2.head? ≠ some r.letter)) :
    assembleArith op [t1, t2] = .error .invalidRegister := by
  cases t1 with
  | nil => rfl
  | cons c1 u1 =>
    cases t2 with
    | nil => rfl
    | cons c2 u2 =>
      simp only [List.head?_cons, ne_eq, Option.some.injEq] at h
      simp only [assembleArith, List.head?_cons, encodeArithmetic_invalid op h]

theorem assembleIo_register (dir : Dir) (r : Reg) (u : Text) : assembleIo dir [r.letter :: u] = .ok (ioByte dir r) := by
  simp only [assembleIo, encodeIo_letter]

theorem assembleIo_invalid (dir : Dir) {ch : Char} (u : Text) (h : ∀ r : Reg, ch ≠ r.letter) :
    assembleIo dir [ch :: u] = .error .invalidRegister := by
  simp only [assembleIo, encodeIo_invalid dir h]

/-- Settles O54: the counts by the number of tokens, the rest by the encoders on first characters. -/
theorem registerOperandsAreChecked : Obligations.RegisterOperandsAreChecked := by
  refine ⟨fun op => ?arith, fun dir => ?io⟩
  case arith =>
    exact ⟨rfl, fun _ => rfl, fun _ _ _ _ => rfl,
      fun r1 r2 u1 u2 => ⟨_, encodeArithmetic_letters op r1 r2, assembleArith_registers op r1 r2 u1 u2⟩,
      fun _ _ => assembleArith_invalid op⟩
  case io =>
    exact ⟨rfl, fun t1 _ _ => by cases t1 <;> rfl, fun r u => ⟨_, encodeIo_letter dir r, assembleIo_register dir r u⟩,
      fun _ u => assembleIo_invalid dir u⟩

/-! ### Batches -/

theorem assembleFrom_cons_error {line : Text} {e : AsmError} (h : assembleLine line = .error e) (n : Nat) (lines : List Text) :
    assembleFrom n (line :: lines) = .error (n, e) := by
  simp only [assembleFrom, h]

/-- A line that assembles adds its byte, if it has one, to those of the lines after it. -/
theorem assembleFrom_cons_ok {line : Text} {r : Option Byte} (h : assembleLine line = .ok r) (n : Nat) (lines : List Text) :
    assembleFrom n (line :: lines) = (assembleFrom (n + 1) lines).map (r.toList ++ ·) := by
  cases r with
  | none =>
    simp only [assembleFrom, h]
    cases assembleFrom (n + 1) lines <;> rfl
  | some b =>
    simp only [assembleFrom, h]
    cases assembleFrom (n + 1) lines <;> rfl

/-- The first failure decides, with its line number counted from `n`. -/
theorem assembleFrom_error {before : List Text} (hbefore : ∀ l ∈ before, ∃ r, assembleLine l = .ok r) {bad : Text} {e : AsmError}
    (hbad : assembleLine bad = .error e) (after : List Text) (n : Nat) :
    assembleFrom n (before ++ bad :: after) = .error (n + before.length, e) := by
  induction before generalizing n with
  | nil => exact assembleFrom_cons_error hbad n after
  | cons line before ih =>
    obtain ⟨⟨r, hline⟩, hrest⟩ := List.forall_mem_cons.mp hbefore
    rw [List.cons_append, assembleFrom_cons_ok hline, ih hrest, List.length_cons, Nat.add_right_comm n 1]
    rfl

theorem assembleFrom_ok {lines : List Text} {bytes : List (Option Byte)} (h : lines.map assembleLine = bytes.map .ok) (n : Nat) :
    assembleFrom n lines = .ok (bytes.filterMap id) := by
  induction lines generalizing bytes n with
  | nil =>
    rw [List.map_nil, eq_comm, List.map_eq_nil_iff] at h
    subst h
    rfl
  | cons line lines ih =>
    cases bytes with
    | nil => cases h
    | cons r bytes =>
      obtain ⟨hline, hlines⟩ := List.cons.inj h
      rw [assembleFrom_cons_ok hline, ih hlines]
      cases r <;> rfl

/-- Settles O55: batch assembly from line 1. -/
theorem batchStopsAtFirstFailure : Obligations.BatchStopsAtFirstFailure := by
  refine ⟨fun before after bad e hbefore hbad => ?failure, fun lines bytes h => assembleFrom_ok h 1⟩
  case failure => rw [assembleFile, assembleFrom_error hbefore hbad, Nat.add_comm]

/-! ### Disassembly -/

/-- An encoded byte disassembles to its instruction's rendering (R91). -/
theorem disassembleByte_of_encode {i : Instr} {b : Byte} (h : encode i = some b) (p : IoBit3Policy) :
    disassembleByte p b = render i := by
  rw [disassembleByte, decode_of_encode h]

/-- A representable instruction's source line assembles to its byte. -/
theorem assembleLine_sourceLine {i : Instr} {b : Byte} (h : encode i = some b) : assembleLine (sourceLine i) = .ok (some b) := by
  cases i with
  | movi v => cases h; exact assembleLine_movi v
  | add r1 r2 => cases h; exact assembleLine_arithLine .add r1 r2
  | sub r1 r2 => cases h; exact assembleLine_arithLine .sub r1 r2
  | mul r1 r2 => cases h; exact assembleLine_arithLine .mul r1 r2
  | div r1 r2 => cases h; exact assembleLine_arithLine .div r1 r2
  | inp tr => cases h; exact assembleLine_ioLine .input tr
  | out tr => cases h; exact assembleLine_ioLine .output tr
  | reserved5 | reserved6 | reserved7 => cases h

theorem encoded_of_encodeMovi {v : Int} {b : Byte} (h : encodeMovi v = .ok b) : ∃ i, encode i = some b := by
  rw [encodeMovi] at h
  split at h <;> cases h
  exact ⟨.movi _, rfl⟩

theorem encoded_of_encodeArithmetic {op : AluOp} {c1 c2 : Char} {b : Byte} (h : encodeArithmetic op c1 c2 = .ok b) :
    ∃ i, encode i = some b := by
  rw [encodeArithmetic] at h
  split at h <;> cases h
  exact ⟨_, encode_arithInstr op _ _⟩

theorem encoded_of_encodeIo {dir : Dir} {ch : Char} {b : Byte} (h : encodeIo dir ch = .ok b) : ∃ i, encode i = some b := by
  rw [encodeIo] at h
  split at h <;> cases h
  exact ⟨_, encode_ioInstr dir _⟩

theorem encoded_of_assembleMovi {toks : List Text} {b : Byte} (h : assembleMovi toks = .ok b) : ∃ i, encode i = some b := by
  unfold assembleMovi at h
  split at h
  next tok =>
    split at h
    next => cases h
    next v _ =>
      split at h <;> cases h
      next hencode => exact encoded_of_encodeMovi hencode
  next => cases h

theorem encoded_of_assembleArith {op : AluOp} {toks : List Text} {b : Byte} (h : assembleArith op toks = .ok b) :
    ∃ i, encode i = some b := by
  unfold assembleArith at h
  split at h
  next => cases h
  next => cases h
  next t1 t2 =>
    split at h
    next c1 c2 _ _ =>
      split at h <;> cases h
      next hencode => exact encoded_of_encodeArithmetic hencode
    next => cases h
  next => cases h

theorem encoded_of_assembleIo {dir : Dir} {toks : List Text} {b : Byte} (h : assembleIo dir toks = .ok b) :
    ∃ i, encode i = some b := by
  unfold assembleIo at h
  split at h
  next => cases h
  next => cases h
  next ch _ =>
    split at h <;> cases h
    next hencode => exact encoded_of_encodeIo hencode
  next => cases h

/-- A line's byte comes from an encoder (R74, R89). -/
theorem encoded_of_assembleLine {line : Text} {b : Byte} (h : assembleLine line = .ok (some b)) : ∃ i, encode i = some b := by
  have operands {m : Mnemonic} {toks : List Text} (hm : assembleOperands m toks = .ok b) : ∃ i, encode i = some b := by
    cases m with
    | movi => exact encoded_of_assembleMovi hm
    | arith op => exact encoded_of_assembleArith hm
    | io dir => exact encoded_of_assembleIo hm
  unfold assembleLine at h
  split at h
  next => cases h
  next ch rest _ =>
    split at h
    next => cases h
    next m toks _ =>
      split at h <;> cases h
      next hbyte => exact operands hbyte

/-- The bytes of a batch are those of instructions, in order. -/
theorem encoded_of_assembleFrom {lines : List Text} {n : Nat} {bytes : List Byte} (h : assembleFrom n lines = .ok bytes) :
    ∃ instrs : List Instr, instrs.map encode = bytes.map some := by
  induction lines generalizing n bytes with
  | nil => cases h; exact ⟨[], rfl⟩
  | cons line lines ih =>
    cases hline : assembleLine line with
    | error e =>
      rw [assembleFrom_cons_error hline] at h
      cases h
    | ok r =>
      rw [assembleFrom_cons_ok hline] at h
      cases hrest : assembleFrom (n + 1) lines with
      | error e =>
        rw [hrest] at h
        cases h
      | ok bs =>
        rw [hrest] at h
        cases h
        obtain ⟨instrs, hinstrs⟩ := ih hrest
        cases r with
        | none => exact ⟨instrs, hinstrs⟩
        | some b =>
          obtain ⟨i, hi⟩ := encoded_of_assembleLine hline
          exact ⟨i :: instrs, by simp [hi, hinstrs]⟩

theorem disassemble_of_map_encode {instrs : List Instr} {bytes : List Byte} (h : instrs.map encode = bytes.map some)
    (p : IoBit3Policy) : disassemble p bytes = instrs.map render := by
  induction instrs generalizing bytes with
  | nil =>
    rw [List.map_nil, eq_comm, List.map_eq_nil_iff] at h
    subst h
    rfl
  | cons i instrs ih =>
    cases bytes with
    | nil => cases h
    | cons b bytes =>
      obtain ⟨hi, hinstrs⟩ := List.cons.inj h
      exact congrArg₂ List.cons (disassembleByte_of_encode hi p) (ih hinstrs)

theorem decimal_digit {n : Nat} (h : n < 10) : decimal n = [Nat.digitChar n] := Nat.toDigits_of_lt_base h

/-- The line of an unknown opcode, its one digit written out (R92, D21). -/
theorem renderUnknown_digit {n : Nat} (h : n < 10) :
    renderUnknown n = "??? (Unknown opcode: ".toList ++ [Nat.digitChar n, ')'] := by
  unfold renderUnknown
  rw [decimal_digit h, List.append_assoc, List.singleton_append]

/-- Settles O56: every representable instruction and every assembled byte by the encoder's law, the unknown opcodes by their
rendering. -/
theorem disassemblyInvertsAssembly : Obligations.DisassemblyInvertsAssembly := by
  refine ⟨fun i hwf => ?instr, fun lines bytes h => ?batch, io_byte_and_line .input, fun p b k hk => ?unknown⟩
  case instr =>
    obtain ⟨b, hb⟩ := Option.isSome_iff_exists.mp ((encode_isSome i).trans hwf)
    exact ⟨b, hb, assembleLine_sourceLine hb, disassembleByte_of_encode hb⟩
  case batch =>
    obtain ⟨instrs, hinstrs⟩ := encoded_of_assembleFrom h
    exact ⟨instrs, hinstrs, disassemble_of_map_encode hinstrs⟩
  case unknown => rw [disassembleByte_unknown hk, renderUnknown_digit (lt_trans k.isLt (by decide))]

end Sys2Proof.Machine
end
